-- ==== Sys2Proof/Word.lean ====
section
/-!
DEFINITION. Sys2Proof/Word.lean: the byte, the 32-bit word, and the names of the six alphabets
(00_scope.md R9, 30_encoding.md R93).
-/
namespace Sys2Proof

/-- An 8-bit unsigned value (R9). -/
abbrev Byte := BitVec 8

/-- A register value or a command word, 32 bits (R22, R90). -/
abbrev Word := BitVec 32

/-- The six alphabets that ROM holds (R93, R121). The reserved ALPHA codes 6 to 15 name no alphabet. -/
inductive Alphabet where
  | base64
  | base64url
  | base32
  | itoa64
  | bcrypt64
  | lotus64
deriving DecidableEq, Repr

end Sys2Proof
end

