-- ==== Sys2Proof/Syntax.lean ====
section
/-!
DEFINITION. Sys2Proof/Syntax.lean: the thirteen commands of 30_encoding.md R92, the engine's instructions.
-/
namespace Sys2Proof

/-- One constructor per row of the opcode map. The only operand a command word carries is ALPHA (R90, R91);
all others come from registers and IBUF. -/
inductive Instr where
  /-- TOSYM, R135. -/
  | tosym (a : Alphabet)
  /-- FROMSYM, R138. -/
  | fromsym (a : Alphabet)
  /-- B64ENC, R155. -/
  | b64enc (a : Alphabet)
  /-- B64DEC, R165. -/
  | b64dec (a : Alphabet)
  /-- B32ENC, R156. -/
  | b32enc (a : Alphabet)
  /-- B32DEC, R166. -/
  | b32dec (a : Alphabet)
  /-- UTF8CHK, R200. -/
  | utf8chk
  /-- ASCIICHK, R231. -/
  | asciichk
  /-- SEPCHK, R236. -/
  | sepchk
  /-- HEXCHK, R242. -/
  | hexchk
  /-- NEEDESC, R246. -/
  | needesc
  /-- ESCAPE, R266. -/
  | escape
  /-- UNESCAPE, R271. -/
  | unescape
deriving DecidableEq, Repr

end Sys2Proof
end

