-- ==== Sys2Proof/WellFormed.lean ====
section
/-!
DEFINITION. Sys2Proof/WellFormed.lean: which alphabets a command admits (30_encoding.md R92, R95).
-/
namespace Sys2Proof

/-- The grouped codecs admit only the alphabets of their width: the 64-symbol ones for B64ENC and B64DEC,
BASE32 for B32ENC and B32DEC. TOSYM and FROMSYM admit all six. -/
def Instr.wellFormed : Instr → Bool
  | .tosym _ | .fromsym _ => true
  | .b64enc a | .b64dec a => decide (a ≠ .base32)
  | .b32enc a | .b32dec a => decide (a = .base32)
  | .utf8chk | .asciichk | .sepchk | .hexchk | .needesc | .escape | .unescape => true

end Sys2Proof
end

