-- ==== Sys2Proof/Decode.lean ====
section
/-!
DEFINITION. Sys2Proof/Decode.lean: command words to commands and back (30_encoding.md R90-R98).
A command is one 32-bit value written to CMD; no byte order of it is observable (R64).
-/
namespace Sys2Proof

/-- OP, bits [7:0] (R90). -/
def opField (w : Word) : BitVec 8 := w.extractLsb' 0 8

/-- ALPHA, bits [11:8] (R90). -/
def alphaField (w : Word) : BitVec 4 := w.extractLsb' 8 4

/-- ZERO, bits [31:12] (R90). -/
def zeroField (w : Word) : BitVec 20 := w.extractLsb' 12 20

/-- The alphabet of an ALPHA code; codes 6 to 15 are reserved (R93). -/
def alphabetOfCode (c : BitVec 4) : Option Alphabet :=
  match c.toNat with
  | 0 => some .base64
  | 1 => some .base64url
  | 2 => some .base32
  | 3 => some .itoa64
  | 4 => some .bcrypt64
  | 5 => some .lotus64
  | _ => none

/-- The ALPHA code of an alphabet (R93). -/
def alphaCode : Alphabet → BitVec 4
  | .base64 => 0
  | .base64url => 1
  | .base32 => 2
  | .itoa64 => 3
  | .bcrypt64 => 4
  | .lotus64 => 5

/-- What a command word says: a command, or the fault its decoding raises (R96, R97). -/
inductive Decoded where
  | command (i : Instr)
  /-- R94, cause 1. -/
  | illegalCommand
  /-- R95, cause 2. -/
  | illegalAlpha
deriving DecidableEq, Repr

/-- A command that uses ALPHA: a reserved code or an alphabet of the wrong width raises IllegalAlpha (R95). -/
def decodeWithAlpha (mk : Alphabet → Instr) (c : BitVec 4) : Decoded :=
  match alphabetOfCode c with
  | none => .illegalAlpha
  | some a => if (mk a).wellFormed then .command (mk a) else .illegalAlpha

/-- A command that does not use ALPHA: a nonzero ALPHA raises IllegalCommand (R94). -/
def decodePlain (i : Instr) (c : BitVec 4) : Decoded :=
  if c = 0 then .command i else .illegalCommand

/-- Decode(w) of R97, in its order: ZERO, then OP, then ALPHA. -/
def decode (w : Word) : Decoded :=
  if zeroField w ≠ 0 then .illegalCommand
  else
    match (opField w).toNat with
    | 0x01 => decodeWithAlpha .tosym (alphaField w)
    | 0x02 => decodeWithAlpha .fromsym (alphaField w)
    | 0x10 => decodeWithAlpha .b64enc (alphaField w)
    | 0x11 => decodeWithAlpha .b64dec (alphaField w)
    | 0x12 => decodeWithAlpha .b32enc (alphaField w)
    | 0x13 => decodeWithAlpha .b32dec (alphaField w)
    | 0x20 => decodePlain .utf8chk (alphaField w)
    | 0x30 => decodePlain .asciichk (alphaField w)
    | 0x31 => decodePlain .sepchk (alphaField w)
    | 0x32 => decodePlain .hexchk (alphaField w)
    | 0x33 => decodePlain .needesc (alphaField w)
    | 0x40 => decodePlain .escape (alphaField w)
    | 0x41 => decodePlain .unescape (alphaField w)
    | _ => .illegalCommand

/-- The OP of a command (R92). -/
def opCode : Instr → BitVec 8
  | .tosym _ => 0x01
  | .fromsym _ => 0x02
  | .b64enc _ => 0x10
  | .b64dec _ => 0x11
  | .b32enc _ => 0x12
  | .b32dec _ => 0x13
  | .utf8chk => 0x20
  | .asciichk => 0x30
  | .sepchk => 0x31
  | .hexchk => 0x32
  | .needesc => 0x33
  | .escape => 0x40
  | .unescape => 0x41

/-- The ALPHA field of a command; 0 for a command that uses none (R90). -/
def alphaOperand : Instr → BitVec 4
  | .tosym a | .fromsym a | .b64enc a | .b64dec a | .b32enc a | .b32dec a => alphaCode a
  | .utf8chk | .asciichk | .sepchk | .hexchk | .needesc | .escape | .unescape => 0

/-- The word of a command: ZERO, ALPHA, OP from the most significant end (R90, R100). -/
def encode (i : Instr) : Word := (0 : BitVec 20) ++ (alphaOperand i ++ opCode i : BitVec 12)

/-- The instruction that the decoder reads from a command word whose low `nbits` bits are those of `w` and
whose other bits are 0. Every command is one 32-bit word (R98), numbered from bit 0 (R9). -/
def decodeTableWord (nbits w : Nat) : Option Instr :=
  match decode (BitVec.ofNat 32 (w % 2 ^ nbits)) with
  | .command i => some i
  | .illegalCommand => none
  | .illegalAlpha => none

end Sys2Proof
end

