-- ==== Sys2Proof/Config.lean ====
section
/-!
DEFINITION. Sys2Proof/Config.lean: what an implementation fixes (the parameters of 00_scope.md R6) and
the free values that stand for UNSPEC (R14). A constant without a body has no value that Lean could prove.
-/
namespace Sys2Proof

/-- The parameters of R6. They are arguments of the model: every statement holds for all of them. -/
structure Params where
  /-- IBUF_SIZE, the number of bytes of IBUF. -/
  ibufSize : Nat
  /-- OBUF_SIZE, the number of bytes of OBUF. -/
  obufSize : Nat
  /-- HEX_UPPER_OK: are `A`-`F` hex digits on input (R241)? -/
  hexUpperOk : Bool
  /-- REG_BASE, IBUF_BASE, OBUF_BASE: where the platform maps the three windows (R73). -/
  regBase : Nat
  ibufBase : Nat
  obufBase : Nat
deriving DecidableEq, Repr

/-- The constraints of R6 on the buffer sizes. -/
abbrev Params.SizesLegal (p : Params) : Prop :=
  6 ≤ p.ibufSize ∧ p.ibufSize ≤ 2 ^ 28 ∧ 6 ≤ p.obufSize ∧ p.obufSize ≤ 2 ^ 30

/-- The bytes of window REG: twelve registers of four bytes (R22). -/
def regWindowSize : Nat := 0x30

/-- R6: the three windows do not overlap. -/
abbrev Params.WindowsDisjoint (p : Params) : Prop :=
  (p.regBase + regWindowSize ≤ p.ibufBase ∨ p.ibufBase + p.ibufSize ≤ p.regBase) ∧
  (p.regBase + regWindowSize ≤ p.obufBase ∨ p.obufBase + p.obufSize ≤ p.regBase) ∧
  (p.ibufBase + p.ibufSize ≤ p.obufBase ∨ p.obufBase + p.obufSize ≤ p.ibufBase)

/-- All constraints of R6. -/
abbrev Params.Valid (p : Params) : Prop := p.SizesLegal ∧ p.WindowsDisjoint

/-- The order of the three windows in the platform's address space, lowest first. -/
inductive WindowOrder where
  | regIbufObuf
  | regObufIbuf
  | ibufRegObuf
  | ibufObufReg
  | obufRegIbuf
  | obufIbufReg
deriving DecidableEq, Repr, Inhabited

/-- Where three windows of these sizes start, laid out in order with `gap0` addresses below the first one, `gap1` between the first
two and `gap2` between the last two. -/
def windowStarts (gap0 gap1 gap2 size1 size2 : Nat) : Nat × Nat × Nat :=
  (gap0, gap0 + size1 + gap1, gap0 + size1 + gap1 + size2 + gap2)

/-- REG_BASE, IBUF_BASE and OBUF_BASE of a layout. Every layout without overlap is some order with some gaps, and no other layout
is (R6, R73). -/
def windowBases (order : WindowOrder) (gap0 gap1 gap2 ibufSize obufSize : Nat) : Nat × Nat × Nat :=
  match order with
  | .regIbufObuf =>
    let s := windowStarts gap0 gap1 gap2 regWindowSize ibufSize
    (s.1, s.2.1, s.2.2)
  | .regObufIbuf =>
    let s := windowStarts gap0 gap1 gap2 regWindowSize obufSize
    (s.1, s.2.2, s.2.1)
  | .ibufRegObuf =>
    let s := windowStarts gap0 gap1 gap2 ibufSize regWindowSize
    (s.2.1, s.1, s.2.2)
  | .ibufObufReg =>
    let s := windowStarts gap0 gap1 gap2 ibufSize obufSize
    (s.2.2, s.1, s.2.1)
  | .obufRegIbuf =>
    let s := windowStarts gap0 gap1 gap2 obufSize regWindowSize
    (s.2.1, s.2.2, s.1)
  | .obufIbufReg =>
    let s := windowStarts gap0 gap1 gap2 obufSize ibufSize
    (s.2.2, s.2.1, s.1)

/-- How far IBUF_SIZE lies above its least value 6; 6 + 268435450 = 2^28 is its greatest (R6). -/
opaque Config.ibufExtra : Fin 268435451

/-- How far OBUF_SIZE lies above its least value 6; 6 + 1073741818 = 2^30 is its greatest (R6). -/
opaque Config.obufExtra : Fin 1073741819

/-- HEX_UPPER_OK of the machine at hand (R241). The spec's default is 1; a claim that needs it takes it as a premise. -/
opaque Config.hexUpperOk : Bool

/-- The platform's order of the windows (R73). -/
opaque Config.windowOrder : WindowOrder

/-- The platform's gaps below and between the windows (R73). -/
opaque Config.gap0 : Nat
opaque Config.gap1 : Nat
opaque Config.gap2 : Nat

/-- UNSPEC (R14): the byte that the n-th read of a buffer byte returns when nothing is stored there. A free
value: it has no body, and no two of its values are related. -/
opaque Config.unspecByte : Nat → Byte

/-- IBUF_SIZE of the machine at hand. -/
def Config.ibufSize : Nat := 6 + Config.ibufExtra.val

/-- OBUF_SIZE of the machine at hand. -/
def Config.obufSize : Nat := 6 + Config.obufExtra.val

/-- REG_BASE, IBUF_BASE and OBUF_BASE of the machine at hand. -/
def Config.bases : Nat × Nat × Nat :=
  windowBases Config.windowOrder Config.gap0 Config.gap1 Config.gap2 Config.ibufSize Config.obufSize

/-- The parameters of the machine at hand; they meet R6. -/
def Config.params : Params where
  ibufSize := Config.ibufSize
  obufSize := Config.obufSize
  hexUpperOk := Config.hexUpperOk
  regBase := Config.bases.1
  ibufBase := Config.bases.2.1
  obufBase := Config.bases.2.2

end Sys2Proof
end

