-- ==== Sys2Proof/Machine/State.lean ====
section
/-!
DEFINITION. Sys2Proof/Machine/State.lean: the state of the engine and its host port, the reasons a step
can stop, and the state after reset (10_state.md).
-/
namespace Sys2Proof.Machine

/-- The twelve registers of address space REG (R22). -/
inductive Reg where
  | cmd
  | status
  | ilen
  | ocap
  | olen
  | result
  | sep
  | cfg
  | maxlen
  | arg
  | ibufsz
  | obufsz
deriving DecidableEq, Repr

/-- The six fault causes (R291). Codes 7 to 15 are reserved and never raised. -/
inductive Cause where
  | illegalCommand
  | illegalAlpha
  | lengthFault
  | capacityFault
  | notEnvelope
  | indexRange
deriving DecidableEq, Repr

/-- What can reach the engine from outside: the six host transactions of R61 and R64, each with the width of the
access in bits, and the platform's reset (R330). An access that is no transaction of the engine can be
written down too; the step refuses it (R34, R62, R66). -/
inductive HostEvent where
  /-- RegWrite(off, v), `wr`. -/
  | regWrite (bits off : Nat) (v : Word)
  /-- RegRead(off), `rd`. -/
  | regRead (bits off : Nat)
  /-- IbufWrite(a, b), `iw`. -/
  | ibufWrite (bits a : Nat) (b : Byte)
  /-- IbufRead(a), `ir`. -/
  | ibufRead (bits a : Nat)
  /-- ObufWrite(a, b), `ow`. -/
  | obufWrite (bits a : Nat) (b : Byte)
  /-- ObufRead(a), `or`. -/
  | obufRead (bits a : Nat)
  /-- The reset input of R330. -/
  | platformReset
deriving DecidableEq, Repr

/-- The value a read transaction returns to the host: a register's 32 bits or a buffer byte (R61, R64). -/
inductive Reply where
  | word (v : Word)
  | byte (b : Byte)
deriving DecidableEq, Repr

/-- A buffer: (index, byte) pairs with strictly rising indices. An index that is not listed holds UNSPEC (R50, R81),
which no byte equals, so every byte written is listed. -/
abbrev Memory := List Host.Cell

structure State where
  /-- The parameters of R6; IBUFSZ and OBUFSZ read two of them (R33). No step changes them (log entry 5). -/
  params : Params
  /-- STATUS.FAULT, bit 0 (R24). -/
  fault : Bool
  /-- STATUS.CAUSE, bits [7:4] (R24). -/
  cause : BitVec 4
  /-- ILEN (R25). -/
  ilen : Word
  /-- OCAP (R26). -/
  ocap : Word
  /-- OLEN (R27). -/
  olen : Word
  /-- RESULT.VAL, bits [7:0] (R32). -/
  result : Byte
  /-- SEP.BYTE, bits [7:0] (R29). -/
  sep : Byte
  /-- CFG.ASCII_ONLY, bit 0 (R30). -/
  asciiOnly : Bool
  /-- MAXLEN (R28). -/
  maxlen : Word
  /-- ARG.BYTE, bits [7:0] (R31). -/
  arg : Byte
  /-- IBUF (R40). -/
  ibuf : Memory
  /-- OBUF (R41). -/
  obuf : Memory
  /-- The model's own: events the host and the platform have issued and the engine has not served, oldest first (R75). -/
  pending : List HostEvent
  /-- The model's own: what the latest served event returned to the host; none for a write. -/
  reply : Option Reply
  /-- The model's own: how many buffer bytes have been read so far. The n-th read of a byte that holds UNSPEC
  returns `Config.unspecByte n` (R14, R81). -/
  draws : Nat
deriving DecidableEq, Repr

/-- The machine never stops with a fault: the engine's faults are next states (R290, R293), and after one the engine goes on
serving host transactions (R294). So no constructor; nothing raises one; safe. -/
inductive Fault where
deriving DecidableEq, Repr

/-- Why a step is refused. -/
inductive Refusal where
  /-- Raised by an arm of `exec` for a command with no meaning yet (no arm is left so). Safe. -/
  | notModelled (mnemonic : String)
  /-- Raised by the step for a register access of a width other than 32 bits or at an offset outside R22:
  no transaction of the engine, and a model must refuse it (R34, R66). Safe. -/
  | strayRegister (bits off : Nat)
  /-- Raised by the step for an IBUF access of a width other than 8 bits or at an index at or above IBUF_SIZE (R62, D21). Safe. -/
  | strayIbuf (bits a : Nat)
  /-- Raised by the step for an OBUF access of a width other than 8 bits or at an index at or above OBUF_SIZE (R62, D21). Safe. -/
  | strayObuf (bits a : Nat)
deriving DecidableEq, Repr

/-- The state after reset of a machine with parameters `p` (R50, R330): registers 0, both buffers UNSPEC. -/
def State.resetWith (p : Params) : State where
  params := p
  fault := false
  cause := 0
  ilen := 0
  ocap := 0
  olen := 0
  result := 0
  sep := 0
  asciiOnly := false
  maxlen := 0
  arg := 0
  ibuf := []
  obuf := []
  pending := []
  reply := none
  draws := 0

/-- The machine right after reset: nothing is pending, so it is idle until its host issues a transaction (R311). -/
def State.reset : State := State.resetWith Config.params

end Sys2Proof.Machine
end

