-- ==== Sys2Proof/Machine/Flags.lean ====
section
/-!
DEFINITION. Sys2Proof/Machine/Flags.lean: the engine's two flag-like values (10_state.md R37): the STATUS word
with its fault codes, and the boolean that a predicate command leaves in RESULT.
-/
namespace Sys2Proof.Machine

/-- The code that STATUS.CAUSE records (R291). -/
def causeCode : Cause → BitVec 4
  | .illegalCommand => 1
  | .illegalAlpha => 2
  | .lengthFault => 3
  | .capacityFault => 4
  | .notEnvelope => 5
  | .indexRange => 6

/-- STATUS as the host reads it: CAUSE in [7:4], FAULT in [0], all other bits 0 (R24). -/
def statusWord (fault : Bool) (cause : BitVec 4) : Word :=
  (0 : BitVec 24) ++ (cause ++ ((0 : BitVec 3) ++ BitVec.ofBool fault : BitVec 4) : BitVec 8)

/-- The source's boolean as RESULT.VAL: 1 when the predicate holds, else 0 (R32, R37). -/
def predicateResult (b : Bool) : Byte := if b then 1 else 0

end Sys2Proof.Machine
end

