-- ==== Sys2Proof/Machine/Ops.lean ====
section
/-!
DEFINITION. Sys2Proof/Machine/Ops.lean: the named operations over buffers and registers, taking a fault, and reset.
-/
namespace Sys2Proof.Machine

/-! ### Buffers -/

/-- The byte stored at index `a`, or none where the buffer holds UNSPEC. -/
def Memory.read : Memory → Nat → Option Byte
  | [], _ => none
  | (k, v) :: m, a => if k = a then some v else Memory.read m a

/-- Store `b` at index `a` and change nothing else (R61). -/
def Memory.write : Memory → Nat → Byte → Memory
  | [], a, b => [(a, b)]
  | (k, v) :: m, a, b =>
    if a < k then (a, b) :: (k, v) :: m
    else if a = k then (a, b) :: m
    else (k, v) :: Memory.write m a b

/-- Bytes laid out from index `base` on. -/
def cellsFrom : Nat → List Byte → Memory
  | _, [] => []
  | base, b :: bs => (base, b) :: cellsFrom (base + 1) bs

/-- The writes of a producing command to OBUF[0..cap): `bytes` from index 0 on, UNSPEC at the indices below `cap` that
`bytes` does not reach (log entry 4), and nothing changed at `cap` and beyond (R26, R336). Bytes at or beyond `cap` are not written (R85). -/
def Memory.overwrite (m : Memory) (cap : Nat) (bytes : List Byte) : Memory :=
  cellsFrom 0 (bytes.take cap) ++ m.filter (fun c => cap ≤ c.1)

/-- The canonical form: indices strictly rising. -/
abbrev Memory.wf (m : Memory) : Prop := (m.map Prod.fst).Pairwise (· < ·)

/-- Every listed index exists in a buffer of `size` bytes (R40, R41). -/
abbrev Memory.below (m : Memory) (size : Nat) : Prop := ∀ c ∈ m, c.1 < size

/-- MemRead: the stored byte, or a free value where the buffer holds UNSPEC; `n` numbers the read (R14, R81, R85). -/
def readByte (m : Memory) (a n : Nat) : Byte := (m.read a).getD (Config.unspecByte n)

/-- Account for `n` byte reads, so that a later read of an UNSPEC byte is a new draw (R81). -/
def countReads (n : Nat) (s : State) : State := { s with draws := s.draws + n }

/-! ### Registers -/

/-- The byte offset of a register (R22). -/
def regOffset : Reg → Nat
  | .cmd => 0x00
  | .status => 0x04
  | .ilen => 0x08
  | .ocap => 0x0C
  | .olen => 0x10
  | .result => 0x14
  | .sep => 0x18
  | .cfg => 0x1C
  | .maxlen => 0x20
  | .arg => 0x24
  | .ibufsz => 0x28
  | .obufsz => 0x2C

/-- The register at an offset, if the table of R22 has one there. -/
def regAt : Nat → Option Reg
  | 0x00 => some .cmd
  | 0x04 => some .status
  | 0x08 => some .ilen
  | 0x0C => some .ocap
  | 0x10 => some .olen
  | 0x14 => some .result
  | 0x18 => some .sep
  | 0x1C => some .cfg
  | 0x20 => some .maxlen
  | 0x24 => some .arg
  | 0x28 => some .ibufsz
  | 0x2C => some .obufsz
  | _ => none

/-- csr[NAME]: the value a read of the register returns; bits that are not stored read 0 (R23-R33). -/
def readReg (r : Reg) (s : State) : Word :=
  match r with
  | .cmd => 0
  | .status => statusWord s.fault s.cause
  | .ilen => s.ilen
  | .ocap => s.ocap
  | .olen => s.olen
  | .result => s.result.setWidth 32
  | .sep => s.sep.setWidth 32
  | .cfg => (BitVec.ofBool s.asciiOnly).setWidth 32
  | .maxlen => s.maxlen
  | .arg => s.arg.setWidth 32
  | .ibufsz => BitVec.ofNat 32 s.params.ibufSize
  | .obufsz => BitVec.ofNat 32 s.params.obufSize

/-- What a host write stores: all 32 bits of ILEN, OCAP and MAXLEN, the defined bits of SEP, CFG and ARG, and nothing for the
others (R24-R33, R35). CMD stores nothing (R23); that a write to it issues a command is `serve` of HostPort. -/
def writeReg (r : Reg) (v : Word) (s : State) : State :=
  match r with
  | .ilen => { s with ilen := v }
  | .ocap => { s with ocap := v }
  | .maxlen => { s with maxlen := v }
  | .sep => { s with sep := v.setWidth 8 }
  | .cfg => { s with asciiOnly := v.getLsbD 0 }
  | .arg => { s with arg := v.setWidth 8 }
  | .cmd | .status | .olen | .result | .ibufsz | .obufsz => s

/-- A predicate or symbol command's one write (R36). -/
def setResult (b : Byte) (s : State) : State := { s with result := b }

/-- What a producing command leaves in OBUF[OLEN..OCAP): zeros after UNESCAPE, UNSPEC after the others (R336). -/
inductive Tail where
  | unspec
  | zeroed
deriving DecidableEq, Repr

/-- The bytes written after the logical result; none are stored where the tail is UNSPEC. -/
def tailBytes (t : Tail) (n : Nat) : List Byte :=
  match t with
  | .unspec => []
  | .zeroed => List.replicate n 0

/-- A producing command's writes: OBUF[0..OCAP) and OLEN (R36). -/
def storeOutput (t : Tail) (out : List Byte) (s : State) : State :=
  { s with
    obuf := s.obuf.overwrite s.ocap.toNat (out ++ tailBytes t (s.ocap.toNat - out.length))
    olen := BitVec.ofNat 32 out.length }

/-! ### Faults -/

/-- `raise F` (R13), fault entry (R293): FAULT and CAUSE are written and nothing else. There is no return from a fault (R301). -/
def takeFault (c : Cause) (s : State) : State := { s with fault := true, cause := causeCode c }

/-- Check (1) of R292: while FAULT is 1 a command is ignored and changes nothing (R294). The CMD write makes it
first (log entry 11). -/
def unlessFaulted (s : State) (k : State → State) : State := if s.fault then s else k s

/-- Check (4) of R292: LengthFault when ILEN > IBUF_SIZE (R297). -/
def checkLength (s : State) (k : State → State) : State :=
  if s.params.ibufSize < s.ilen.toNat then takeFault .lengthFault s else k s

/-- Check (7) of R292: CapacityFault when OCAP > OBUF_SIZE or OCAP < `req` (R298). -/
def checkCapacity (req : Nat) (s : State) (k : State → State) : State :=
  if s.params.obufSize < s.ocap.toNat ∨ s.ocap.toNat < req then takeFault .capacityFault s else k s

/-! ### Reset -/

/-- The platform's reset (R330): every register at its reset value, both buffers UNSPEC, FAULT and CAUSE cleared. What the host
has issued and not yet had served stays issued, and the numbering of draws goes on: neither is the engine's. -/
def platformReset (s : State) : State :=
  { State.resetWith s.params with pending := s.pending, draws := s.draws }

end Sys2Proof.Machine
end

