-- ==== Sys2Proof/Machine/Operands.lean ====
section
/-!
DEFINITION. Sys2Proof/Machine/Operands.lean: a command's operands, all from fixed registers and IBUF (30_encoding.md R90),
and the shapes that the commands share.
-/
namespace Sys2Proof.Machine

/-- ceil(a / b) of R10. -/
def ceilDiv (a b : Nat) : Nat := (a + b - 1) / b

/-- IBUF[0..n): each byte is read once and the reads are numbered in index order (R11, R198, log entry 3). -/
def inputBytes (s : State) (n : Nat) : List Byte :=
  (List.range n).map fun i => readByte s.ibuf i (s.draws + i)

/-- Run `k` on IBUF[0..n), in the state where those reads have been made. -/
def withInput (n : Nat) (s : State) (k : List Byte → State → State) : State :=
  k (inputBytes s n) (countReads n s)

/-- IN = IBUF[0..ILEN) (R11). -/
def inputSeq (s : State) : List Byte := inputBytes s s.ilen.toNat

/-- The index or symbol byte of the symbol commands, ARG.BYTE (R31). -/
def argIndex (s : State) : Nat := s.arg.toNat

/-- The shape of a predicate command (R231): the length check, then RESULT <- 1 or 0. The predicate also sees the configuration. -/
def predicateCommand (p : State → List Byte → Bool) (s : State) : State :=
  unlessFaulted s fun s => checkLength s fun s =>
    withInput s.ilen.toNat s fun inp s => setResult (predicateResult (p s inp)) s

/-- The shape of a producing command that reads IBUF[0..n) after its capacity check (R155, R165, R266); the tail is UNSPEC. -/
def producingCommand (req n : Nat) (f : List Byte → List Byte) (s : State) : State :=
  checkLength s fun s => checkCapacity req s fun s =>
    withInput n s fun inp s => storeOutput .unspec (f inp) s

end Sys2Proof.Machine
end

