-- ==== Sys2Proof/Machine/Utf8.lean ====
section
/-!
DEFINITION. Sys2Proof/Machine/Utf8.lean: the UTF-8 validator (42_utf8_validator.md): the class table, the scan of R195, which is
the normative form, the finite-state form of R205-R207, and UTF8CHK.
-/
namespace Sys2Proof.Machine

/-- Classes 1 to 8 of R191, those whose sequences have a second byte. -/
inductive MultiClass where
  | c1 | c2 | c3 | c4 | c5 | c6 | c7 | c8
deriving DecidableEq, Repr

/-- The nine leading-byte classes of R191; `single` is class 0. -/
inductive LeadClass where
  | single
  | multi (k : MultiClass)
deriving DecidableEq, Repr

/-- lo <= b <= hi, bounds included. -/
def inRange (lo hi : Nat) (b : Byte) : Bool := decide (lo ≤ b.toNat ∧ b.toNat ≤ hi)

/-- Class(b); none is INVALID (R191). -/
def leadClass (b : Byte) : Option LeadClass :=
  if inRange 0x00 0x7F b then some .single
  else if inRange 0xC2 0xDF b then some (.multi .c1)
  else if inRange 0xE0 0xE0 b then some (.multi .c2)
  else if inRange 0xE1 0xEC b then some (.multi .c3)
  else if inRange 0xED 0xED b then some (.multi .c4)
  else if inRange 0xEE 0xEF b then some (.multi .c5)
  else if inRange 0xF0 0xF0 b then some (.multi .c6)
  else if inRange 0xF1 0xF3 b then some (.multi .c7)
  else if inRange 0xF4 0xF4 b then some (.multi .c8)
  else none

/-- Len(k) (R192). -/
def seqLen : LeadClass → Nat
  | .single => 1
  | .multi .c1 => 2
  | .multi .c2 | .multi .c3 | .multi .c4 | .multi .c5 => 3
  | .multi .c6 | .multi .c7 | .multi .c8 => 4

/-- Lo2(k) (R193). -/
def lo2 : MultiClass → Nat
  | .c2 => 0xA0
  | .c6 => 0x90
  | .c1 | .c3 | .c4 | .c5 | .c7 | .c8 => 0x80

/-- Hi2(k) (R193). -/
def hi2 : MultiClass → Nat
  | .c4 => 0x9F
  | .c8 => 0x8F
  | .c1 | .c2 | .c3 | .c5 | .c6 | .c7 => 0xBF

/-- A third or fourth byte (R194). -/
def isContinuation (b : Byte) : Bool := inRange 0x80 0xBF b

/-- Step 3 of the scan on the bytes that follow the leading byte within its sequence (R193-R195). -/
def restOk : LeadClass → List Byte → Bool
  | .single, rest => rest.isEmpty
  | .multi _, [] => false
  | .multi k, b :: more => inRange (lo2 k) (hi2 k) b && more.all isContinuation

/-- The loop of R195 on the bytes from `pos` on; each iteration takes one full sequence. `fuel` bounds the iterations, and the
length of the input is enough, since each takes at least one byte. -/
def scan : Nat → List Byte → Bool
  | _, [] => true
  | 0, _ :: _ => false
  | fuel + 1, b :: rest =>
    match leadClass b with
    | none => false
    | some k =>
      if rest.length + 1 < seqLen k then false
      else if restOk k (rest.take (seqLen k - 1)) then scan fuel (rest.drop (seqLen k - 1))
      else false

/-- WellFormedUtf8(s) (R190, R195). -/
def wellFormedUtf8 (s : List Byte) : Bool := scan s.length s

/-- The twelve states of the byte-serial machine (R205). -/
inductive ScanState where
  | start
  | second (k : MultiClass)
  | cont2
  | cont1
  | reject
deriving DecidableEq, Repr

/-- Next(state, b) (R206). -/
def scanNext : ScanState → Byte → ScanState
  | .start, b =>
    match leadClass b with
    | some .single => .start
    | some (.multi k) => .second k
    | none => .reject
  | .second k, b =>
    if inRange (lo2 k) (hi2 k) b then
      match seqLen (.multi k) with
      | 2 => .start
      | 3 => .cont1
      | _ => .cont2
    else .reject
  | .cont2, b => if isContinuation b then .cont1 else .reject
  | .cont1, b => if isContinuation b then .start else .reject
  | .reject, _ => .reject

/-- Acceptance by the byte-serial machine (R207). -/
def fsmAccepts (s : List Byte) : Bool := decide (s.foldl scanNext .start = .start)

/-- UTF8CHK (R200). -/
def execUtf8chk (s : State) : Host.Outcome State Fault Refusal :=
  .next <| predicateCommand (fun _ inp => wellFormedUtf8 inp) s

end Sys2Proof.Machine
end

