-- ==== Sys2Proof/Machine/Policy.lean ====
section
/-!
DEFINITION. Sys2Proof/Machine/Policy.lean: the escaping policy ASCIICHK, SEPCHK, HEXCHK, NEEDESC (43_escape_policy.md).
-/
namespace Sys2Proof.Machine

/-- PrintableAscii(s) (R230). -/
def printableAscii (s : List Byte) : Bool := s.all (inRange 0x20 0x7E)

/-- HasSeparator(s, c) (R235). -/
def hasSeparator (s : List Byte) (c : Byte) : Bool := s.any (· == c)

/-- IsHexDigit(b); `upper` is HEX_UPPER_OK (R241). -/
def isHexDigit (upper : Bool) (b : Byte) : Bool :=
  inRange 0x30 0x39 b || inRange 0x61 0x66 b || (inRange 0x41 0x46 b && upper)

/-- `$HEX[` (R8). -/
def envelopeHead : List Byte := [0x24, 0x48, 0x45, 0x58, 0x5B]

/-- `]` (R8). -/
def envelopeEnd : Byte := 0x5D

/-- s[5..n-1), the interior of an envelope of n bytes (R240). -/
def interior (s : List Byte) : List Byte := (s.drop 5).take (s.length - 6)

/-- HexEnvelope(s), its conditions (a) to (e) (R240). -/
def hexEnvelope (upper : Bool) (s : List Byte) : Bool :=
  decide (6 ≤ s.length) && decide (s.length % 2 = 0) && decide (s.take 5 = envelopeHead)
    && decide (s[s.length - 1]? = some envelopeEnd) && (interior s).all (isHexDigit upper)

/-- NeedsEscaping(s, c, ascii_only) (R245). -/
def needsEscaping (upper : Bool) (s : List Byte) (c : Byte) (asciiOnly : Bool) : Bool :=
  (if asciiOnly then !printableAscii s else !wellFormedUtf8 s) || hasSeparator s c || hexEnvelope upper s

/-- ASCIICHK (R231). -/
def execAsciichk (s : State) : Host.Outcome State Fault Refusal :=
  .next <| predicateCommand (fun _ inp => printableAscii inp) s

/-- SEPCHK (R236). -/
def execSepchk (s : State) : Host.Outcome State Fault Refusal :=
  .next <| predicateCommand (fun s inp => hasSeparator inp s.sep) s

/-- HEXCHK (R242). -/
def execHexchk (s : State) : Host.Outcome State Fault Refusal :=
  .next <| predicateCommand (fun s inp => hexEnvelope s.params.hexUpperOk inp) s

/-- NEEDESC (R246). -/
def execNeedesc (s : State) : Host.Outcome State Fault Refusal :=
  .next <| predicateCommand (fun s inp => needsEscaping s.params.hexUpperOk inp s.sep s.asciiOnly) s

end Sys2Proof.Machine
end

