-- ==== Sys2Proof/Machine/HexEscape.lean ====
section
/-!
DEFINITION. Sys2Proof/Machine/HexEscape.lean: the hex-escape encoder and decoder ESCAPE, UNESCAPE (44_hex_escape.md).
-/
namespace Sys2Proof.Machine

/-- HexDigit(v) (R261): lower case always. -/
def hexDigit (v : BitVec 4) : Byte :=
  if v.toNat ≤ 9 then BitVec.ofNat 8 (0x30 + v.toNat) else BitVec.ofNat 8 (0x61 + (v.toNat - 10))

/-- The two digits of a byte, high nibble first (R69, R261). -/
def hexPair (b : Byte) : List Byte := [hexDigit (b.extractLsb' 4 4), hexDigit (b.extractLsb' 0 4)]

/-- Nibble(b) for a hex digit `b`, by the digit's range (R262); it is applied to no other byte (R271). -/
def nibble (b : Byte) : BitVec 4 :=
  if b.toNat ≤ 0x39 then BitVec.ofNat 4 (b.toNat - 0x30)
  else if 0x61 ≤ b.toNat then BitVec.ofNat 4 (b.toNat - 0x61 + 10)
  else BitVec.ofNat 4 (b.toNat - 0x41 + 10)

/-- The escape envelope of a payload (R260). -/
def envelope (p : List Byte) : List Byte := envelopeHead ++ p.flatMap hexPair ++ [envelopeEnd]

/-- Escape(s, maxlen) (R265). -/
def escapeBytes (s : List Byte) (maxlen : Nat) : List Byte := envelope (s.take (min s.length maxlen))

/-- Unescape(e) for an envelope `e` (R270). -/
def unescapeBytes (e : List Byte) : List Byte :=
  (List.range ((e.length - 6) / 2)).map fun i =>
    nibble (e.getD (5 + 2 * i) 0) ++ nibble (e.getD (6 + 2 * i) 0)

/-- m of R266: how many input bytes ESCAPE encodes, the only ones it reads. -/
def escapedLen (s : State) : Nat := min s.ilen.toNat s.maxlen.toNat

/-- ESCAPE (R266). -/
def execEscape (s : State) : Host.Outcome State Fault Refusal :=
  .next <| unlessFaulted s fun s =>
    producingCommand (6 + 2 * escapedLen s) (escapedLen s) (fun inp => escapeBytes inp s.maxlen.toNat) s

/-- UNESCAPE (R271; log entry 3): the envelope test comes before the capacity check, and the tail is zeroed. -/
def execUnescape (s : State) : Host.Outcome State Fault Refusal :=
  .next <| unlessFaulted s fun s => checkLength s fun s =>
    withInput s.ilen.toNat s fun inp s =>
      if hexEnvelope s.params.hexUpperOk inp then
        checkCapacity ((s.ilen.toNat - 6) / 2) s fun s => storeOutput .zeroed (unescapeBytes inp) s
      else takeFault .notEnvelope s

end Sys2Proof.Machine
end

