-- ==== Sys2Proof/Machine/Alphabets.lean ====
section
/-!
DEFINITION. Sys2Proof/Machine/Alphabets.lean: the alphabet ROM and the symbol commands TOSYM and FROMSYM (40_alphabets.md).
-/
namespace Sys2Proof.Machine

/-- `n` successive ASCII codes from `first` on. -/
def codesFrom (first n : Nat) : List Byte := (List.range n).map fun i => BitVec.ofNat 8 (first + i)

/-- `A`-`Z`. -/
def upperLetters : List Byte := codesFrom 0x41 26

/-- `a`-`z`. -/
def lowerLetters : List Byte := codesFrom 0x61 26

/-- `0`-`9`. -/
def digits : List Byte := codesFrom 0x30 10

/-- The symbols of an alphabet in index order (R122-R127). -/
def rom : Alphabet → List Byte
  | .base64 => upperLetters ++ lowerLetters ++ digits ++ [0x2B, 0x2F]
  | .base64url => upperLetters ++ lowerLetters ++ digits ++ [0x2D, 0x5F]
  | .base32 => upperLetters ++ codesFrom 0x32 6
  | .itoa64 => [0x2E, 0x2F] ++ digits ++ upperLetters ++ lowerLetters
  | .bcrypt64 => [0x2E, 0x2F] ++ upperLetters ++ lowerLetters ++ digits
  | .lotus64 => digits ++ upperLetters ++ lowerLetters ++ [0x2B, 0x2F]

/-- N(a) (R120, R121). -/
def alphabetSize : Alphabet → Nat
  | .base32 => 32
  | .base64 | .base64url | .itoa64 | .bcrypt64 | .lotus64 => 64

/-- ToSym(a, i) for i < N(a), its whole domain (R120); no command applies it elsewhere. -/
def toSym (a : Alphabet) (i : Nat) : Byte := (rom a).getD i 0

/-- The index of the first element equal to `b`, counting from `i`. -/
def indexFrom (b : Byte) : Nat → List Byte → Option Nat
  | _, [] => none
  | i, c :: cs => if c = b then some i else indexFrom b (i + 1) cs

/-- FromSym(a, b): the index of the symbol `b`, and 0 for a byte that is no symbol (R128). -/
def fromSym (a : Alphabet) (b : Byte) : Nat := (indexFrom b 0 (rom a)).getD 0

/-- TOSYM (R135). -/
def execTosym (a : Alphabet) (s : State) : Host.Outcome State Fault Refusal :=
  .next <| unlessFaulted s fun s =>
    if alphabetSize a ≤ argIndex s then takeFault .indexRange s
    else setResult (toSym a (argIndex s)) s

/-- FROMSYM (R138). -/
def execFromsym (a : Alphabet) (s : State) : Host.Outcome State Fault Refusal :=
  .next <| unlessFaulted s fun s => setResult (BitVec.ofNat 8 (fromSym a s.arg)) s

end Sys2Proof.Machine
end

