-- ==== Sys2Proof/Machine/Transcoder.lean ====
section
/-!
DEFINITION. Sys2Proof/Machine/Transcoder.lean: the generic bit-packing transcoder, B64ENC, B64DEC, B32ENC, B32DEC
(41_transcoder.md). A group is a bit string, held as a natural number whose most significant bits come first.
-/
namespace Sys2Proof.Machine

/-- A family of R150: bits per symbol, raw bytes per group (GB), symbols per group (GS). -/
structure Family where
  bits : Nat
  gb : Nat
  gs : Nat
deriving DecidableEq, Repr

/-- The 6-bit family: 3 bytes, 4 symbols. -/
def sixBit : Family := ⟨6, 3, 4⟩

/-- The 5-bit family: 5 bytes, 8 symbols. -/
def fiveBit : Family := ⟨5, 5, 8⟩

/-- PAD, `=` (R150). -/
def pad : Byte := 0x3D

/-- x_0 || x_1 || ... || x_(n-1) of fields of `width` bits, the first one most significant (R9). -/
def concatFields (width : Nat) (xs : List Nat) : Nat :=
  xs.foldl (fun acc x => acc * 2 ^ width + x) 0

/-- The j-th field of `width` bits from the most significant end of a string of `total` bits (R68). -/
def fieldFromTop (total width j v : Nat) : Nat := v / 2 ^ (total - width * (j + 1)) % 2 ^ width

/-- V of R152: the bytes of group `g`, zero where the input has ended. -/
def packGroup (fam : Family) (s : List Byte) (g : Nat) : Nat :=
  concatFields 8 ((List.range fam.gb).map fun k => (s.getD (fam.gb * g + k) 0).toNat)

/-- x_j of group `g` (R152). -/
def symbolIndex (fam : Family) (s : List Byte) (g j : Nat) : Nat :=
  fieldFromTop (8 * fam.gb) fam.bits j (packGroup fam s g)

/-- nd, the number of data symbols for `n` bytes (R153). -/
def dataSymbols (fam : Family) (n : Nat) : Nat := ceilDiv (8 * n) fam.bits

/-- EncLen(n) (R153). -/
def encLen (fam : Family) (n : Nat) : Nat := fam.gs * ceilDiv (dataSymbols fam n) fam.gs

/-- Encode(a, s) (R154). -/
def encodeBytes (fam : Family) (a : Alphabet) (s : List Byte) : List Byte :=
  (List.range (encLen fam s.length)).map fun p =>
    if p < dataSymbols fam s.length then toSym a (symbolIndex fam s (p / fam.gs) (p % fam.gs)) else pad

/-- t, the index of the first PAD, or the length when there is none (R160). -/
def firstPad (s : List Byte) : Nat := (indexFrom pad 0 s).getD s.length

/-- DecLen(s) (R160). -/
def decLen (fam : Family) (s : List Byte) : Nat := firstPad s * fam.bits / 8

/-- y_j of group `g`: the decoded symbol, zero where the input has ended (R161). -/
def decodedSymbol (fam : Family) (a : Alphabet) (s : List Byte) (g j : Nat) : Nat :=
  match s[fam.gs * g + j]? with
  | some b => fromSym a b
  | none => 0

/-- W of R161: the decoded symbols of group `g`. -/
def unpackGroup (fam : Family) (a : Alphabet) (s : List Byte) (g : Nat) : Nat :=
  concatFields fam.bits ((List.range fam.gs).map fun j => decodedSymbol fam a s g j)

/-- Decode(a, s) (R161). -/
def decodeBytes (fam : Family) (a : Alphabet) (s : List Byte) : List Byte :=
  (List.range (decLen fam s)).map fun m =>
    BitVec.ofNat 8 (fieldFromTop (8 * fam.gb) 8 (m % fam.gb) (unpackGroup fam a s (m / fam.gb)))

/-- An encode command: the required capacity is the padded symbol count (R155, R156, R298). -/
def encodeCommand (fam : Family) (a : Alphabet) (s : State) : State :=
  producingCommand (encLen fam s.ilen.toNat) s.ilen.toNat (encodeBytes fam a) s

/-- A decode command: the required capacity is ILEN, whatever the logical length (R165, R166, R298). -/
def decodeCommand (fam : Family) (a : Alphabet) (s : State) : State :=
  producingCommand s.ilen.toNat s.ilen.toNat (decodeBytes fam a) s

/-- Check (3) of R292 for a command whose family has alphabets of `size` symbols: IllegalAlpha on another width (R95).
The decoder refuses such a word before; this covers a term it cannot give (log entry 11). -/
def checkAlpha (size : Nat) (a : Alphabet) (s : State) (k : State → State) : State :=
  if alphabetSize a = size then k s else takeFault .illegalAlpha s

/-- B64ENC (R155). -/
def execB64enc (a : Alphabet) (s : State) : Host.Outcome State Fault Refusal :=
  .next <| unlessFaulted s fun s => checkAlpha 64 a s fun s => encodeCommand sixBit a s

/-- B64DEC (R165). -/
def execB64dec (a : Alphabet) (s : State) : Host.Outcome State Fault Refusal :=
  .next <| unlessFaulted s fun s => checkAlpha 64 a s fun s => decodeCommand sixBit a s

/-- B32ENC (R156). -/
def execB32enc (a : Alphabet) (s : State) : Host.Outcome State Fault Refusal :=
  .next <| unlessFaulted s fun s => checkAlpha 32 a s fun s => encodeCommand fiveBit a s

/-- B32DEC (R166). -/
def execB32dec (a : Alphabet) (s : State) : Host.Outcome State Fault Refusal :=
  .next <| unlessFaulted s fun s => checkAlpha 32 a s fun s => decodeCommand fiveBit a s

end Sys2Proof.Machine
end

