-- ==== Sys2Proof/Machine/Dispatch.lean ====
section
/-!
DEFINITION. Sys2Proof/Machine/Dispatch.lean: one arm per command, each a call of its meaning.
-/
namespace Sys2Proof.Machine

def exec (i : Instr) (s : State) : Host.Outcome State Fault Refusal :=
  match i with
  | .tosym a => Sys2Proof.Machine.execTosym a s
  | .fromsym a => Sys2Proof.Machine.execFromsym a s
  | .b64enc a => Sys2Proof.Machine.execB64enc a s
  | .b64dec a => Sys2Proof.Machine.execB64dec a s
  | .b32enc a => Sys2Proof.Machine.execB32enc a s
  | .b32dec a => Sys2Proof.Machine.execB32dec a s
  | .utf8chk => Sys2Proof.Machine.execUtf8chk s
  | .asciichk => Sys2Proof.Machine.execAsciichk s
  | .sepchk => Sys2Proof.Machine.execSepchk s
  | .hexchk => Sys2Proof.Machine.execHexchk s
  | .needesc => Sys2Proof.Machine.execNeedesc s
  | .escape => Sys2Proof.Machine.execEscape s
  | .unescape => Sys2Proof.Machine.execUnescape s

end Sys2Proof.Machine
end

