-- ==== Sys2Proof/Machine/HostPort.lean ====
section
/-!
DEFINITION. Sys2Proof/Machine/HostPort.lean: serving one event of the host port (20_memory.md, 10_state.md R22-R35): issuing a
command word, register and buffer transactions, the platform's reset, and the flat bus address of a transaction.
-/
namespace Sys2Proof.Machine

/-- A write of `w` to CMD (R23, R76). While FAULT is 1 it is ignored and not decoded (R294); else the command runs to its end, or
the word's decoding raises its fault (R94, R95, R97). -/
def issue (w : Word) (s : State) : Host.Outcome State Fault Refusal :=
  if s.fault then .next s
  else
    match decode w with
    | .command i => exec i s
    | .illegalCommand => .next (takeFault .illegalCommand s)
    | .illegalAlpha => .next (takeFault .illegalAlpha s)

/-- The register that a register access reaches: only a 32-bit access at an offset of the table reaches one (R34, R64). -/
def regAccess (bits off : Nat) : Option Reg := if bits = 32 then regAt off else none

/-- A buffer access is one byte wide and inside the buffer (R61, R62; log entry 7). -/
def bufferAccess (bits a size : Nat) : Bool := decide (bits = 8 ∧ a < size)

/-- Serve one event (R61, R64, R330). -/
def serve (e : HostEvent) (s : State) : Host.Outcome State Fault Refusal :=
  match e with
  | .regWrite bits off v =>
    match regAccess bits off with
    | none => .refused (.strayRegister bits off)
    | some .cmd => issue v s
    | some r => .next (writeReg r v s)
  | .regRead bits off =>
    match regAccess bits off with
    | none => .refused (.strayRegister bits off)
    | some r => .next { s with reply := some (.word (readReg r s)) }
  | .ibufWrite bits a b =>
    if bufferAccess bits a s.params.ibufSize then .next { s with ibuf := s.ibuf.write a b }
    else .refused (.strayIbuf bits a)
  | .ibufRead bits a =>
    if bufferAccess bits a s.params.ibufSize then
      .next { countReads 1 s with reply := some (.byte (readByte s.ibuf a s.draws)) }
    else .refused (.strayIbuf bits a)
  | .obufWrite bits a b =>
    if bufferAccess bits a s.params.obufSize then .next { s with obuf := s.obuf.write a b }
    else .refused (.strayObuf bits a)
  | .obufRead bits a =>
    if bufferAccess bits a s.params.obufSize then
      .next { countReads 1 s with reply := some (.byte (readByte s.obuf a s.draws)) }
    else .refused (.strayObuf bits a)
  | .platformReset => .next (platformReset s)

/-- Take the oldest pending event off the list; the host has no reply to it yet. -/
def popEvent (rest : List HostEvent) (s : State) : State := { s with pending := rest, reply := none }

/-- One transaction (R5, R75): serve the oldest pending event, in the state without it. With none pending the engine is idle and
holds all its state (R311). -/
def serveNext (s : State) : Host.Outcome State Fault Refusal :=
  match s.pending with
  | [] => .next s
  | e :: rest => serve e (popEvent rest s)

/-- The host issues one more event, to be served before all others pending. -/
def pushEvent (e : HostEvent) (s : State) : State := { s with pending := e :: s.pending }

/-- The transaction that writes a word to CMD. -/
def commandWrite (w : Word) : HostEvent := .regWrite 32 0x00 w

/-- The command word whose low `nbits` bits are those of `w` and whose other bits are 0. -/
def tableWord (nbits w : Nat) : Word := BitVec.ofNat 32 (w % 2 ^ nbits)

/-- The address of a transaction on a flat bus (R73, R100); reset has none. -/
def flatAddress (p : Params) : HostEvent → Option Nat
  | .regWrite _ off _ | .regRead _ off => some (p.regBase + off)
  | .ibufWrite _ a _ | .ibufRead _ a => some (p.ibufBase + a)
  | .obufWrite _ a _ | .obufRead _ a => some (p.obufBase + a)
  | .platformReset => none

end Sys2Proof.Machine
end

