-- ==== Sys2Proof/Machine/Step.lean ====
section
/-!
DEFINITION. Sys2Proof/Machine/Step.lean: one step of the machine is one host transaction (00_scope.md R5).
-/
namespace Sys2Proof.Machine

def step (s : State) : Host.Outcome State Fault Refusal := serveNext s

/-- The host issues a write of the word to CMD, to be served by the very next step (R23). The engine fetches nothing (R21): a
command runs when the host writes its word. -/
def State.withFetchWord (s : State) (nbits w : Nat) : State :=
  pushEvent (commandWrite (tableWord nbits w)) s

end Sys2Proof.Machine
end

