-- ==== Sys2Proof/Machine/HostScript.lean ====
section
/-!
DEFINITION. Sys2Proof/Machine/HostScript.lean: the host-script notation (30_encoding.md R100, R101) as lists of transactions.
-/
namespace Sys2Proof.Machine

/-- `wr REG, v`. -/
def scriptWr (r : Reg) (v : Word) : HostEvent := .regWrite 32 (regOffset r) v

/-- `rd REG`. -/
def scriptRd (r : Reg) : HostEvent := .regRead 32 (regOffset r)

/-- A mnemonic, with its alphabet where it takes one: the write of its word to CMD. -/
def scriptCommand (i : Instr) : HostEvent := commandWrite (encode i)

/-- `iw i, b` for successive bytes from index `i` on. -/
def scriptIw : Nat → List Byte → List HostEvent
  | _, [] => []
  | i, b :: bs => .ibufWrite 8 i b :: scriptIw (i + 1) bs

/-- `load b0 b1 ...`. -/
def scriptLoad (bytes : List Byte) : List HostEvent :=
  scriptIw 0 bytes ++ [scriptWr .ilen (BitVec.ofNat 32 bytes.length)]

/-- `cap n`. -/
def scriptCap (n : Nat) : List HostEvent := [scriptWr .ocap (BitVec.ofNat 32 n)]

/-- `or i; iw i, <value read>` for successive bytes from index `i` on. -/
def scriptMove : Nat → List Byte → List HostEvent
  | _, [] => []
  | i, b :: bs => .obufRead 8 i :: .ibufWrite 8 i b :: scriptMove (i + 1) bs

/-- `o2i`, a loop of the host: `read` are the values its OBUF[0..OLEN) reads return. -/
def scriptO2i (read : List Byte) : List HostEvent :=
  scriptMove 0 read ++ [scriptWr .ilen (BitVec.ofNat 32 read.length)]

/-- The transactions of `expect REG == v`: one read. -/
def scriptExpectReg (r : Reg) : List HostEvent := [scriptRd r]

/-- The transactions of `expect OBUF[0..n) == bytes`: n reads. -/
def scriptExpectObuf (n : Nat) : List HostEvent := (List.range n).map fun i => .obufRead 8 i

/-- The host issues a script after everything it has issued before. -/
def enqueue (script : List HostEvent) (s : State) : State := { s with pending := s.pending ++ script }

end Sys2Proof.Machine
end

