-- ==== Sys2Proof/Safety.lean ====
section
/-!
DEFINITION. Sys2Proof/Safety.lean: the invariant of the engine and what a fault-free command is.
-/
namespace Sys2Proof.Machine

/-- STATUS is legal: CAUSE is 0 while FAULT is 0 (R24) and one of the six codes of R291 while FAULT is 1. -/
abbrev StatusLegal (s : State) : Prop :=
  (s.fault = false → s.cause = 0) ∧ (s.fault = true → 1 ≤ s.cause.toNat ∧ s.cause.toNat ≤ 6)

/-- The buffers are in canonical form and list only indices that exist (R40, R41). -/
abbrev BuffersLegal (s : State) : Prop :=
  s.ibuf.wf ∧ s.ibuf.below s.params.ibufSize ∧ s.obuf.wf ∧ s.obuf.below s.params.obufSize

/-- The symbols of all six alphabets (R121). -/
def allSymbols : List Byte :=
  [Alphabet.base64, .base64url, .base32, .itoa64, .bcrypt64, .lotus64].flatMap rom

/-- RESULT holds a boolean, an index 0 to 63 or a symbol (R32). -/
abbrev ResultLegal (s : State) : Prop := s.result.toNat < 64 ∨ s.result ∈ allSymbols

/-- The invariant: the parameters meet R6 (log entry 5), STATUS is legal, the buffers are legal, with the model's canonical form
(log entry 4), OLEN is no more than OBUF_SIZE (R27, R298), and RESULT is legal. -/
abbrev State.Inv (s : State) : Prop :=
  s.params.Valid ∧ StatusLegal s ∧ BuffersLegal s ∧ s.olen.toNat ≤ s.params.obufSize ∧ ResultLegal s

/-- R294: the premise of every claim about a command's result. -/
abbrev Live (s : State) : Prop := s.fault = false

end Sys2Proof.Machine
end

