-- ==== Sys2Proof/Certificates/Slice0/Obligations.lean ====
section
/-!
DEFINITION. Sys2Proof/Certificates/Slice0/Obligations.lean: the statements for the provers, made from the numbered rules of spec/.
A state here is any State, also one that no run reaches; where a claim could fail only there, a premise rules it out.
`pending`, `reply` and `draws` are the model's own fields (log entries 1, 6, 2): they stand in the next states so that these are
whole, what a statement says of them is the model's choice, and no claim rests on the value of `draws`.
-/

namespace Sys2Proof.Spec

open Sys2Proof.Machine

/-- `t` is `s` after fault entry with CAUSE `c`: R293, nothing else written. `n` is how many input bytes the command read
before it raised the fault, which only the numbering of the free values shows. -/
abbrev Faulted (s t : State) (c : BitVec 4) (n : Nat) : Prop :=
  t = { s with fault := true, cause := c, draws := s.draws + n }

/-- `t` is `s` after a successful producing command that read `n` input bytes and whose logical result is `out`: OLEN and OBUF and
nothing else are written, OBUF[0..OLEN) holds `out`, OBUF[OLEN..OCAP) holds `tail` (none for UNSPEC), and every other byte of OBUF
reads as before. -/
abbrev Produced (s t : State) (out : List Byte) (tail : Option Byte) (n : Nat) : Prop :=
  t = { s with olen := BitVec.ofNat 32 out.length, obuf := t.obuf, draws := s.draws + n } ∧
  t.olen.toNat = out.length ∧
  ∀ p, t.obuf.read p =
    if p < out.length then out[p]? else if p < s.ocap.toNat then tail else s.obuf.read p

/-- The premises under which a command that reads IN executes normally: FAULT is 0 (R294) and ILEN <= IBUF_SIZE (R297). -/
abbrev Ready (s : State) : Prop := Live s ∧ s.ilen.toNat ≤ s.params.ibufSize

/-- OCAP is legal for a command that requires `req` bytes (R298). -/
abbrev Fits (s : State) (req : Nat) : Prop := s.ocap.toNat ≤ s.params.obufSize ∧ req ≤ s.ocap.toNat

/-- The commands that read IBUF: all but TOSYM and FROMSYM (R60, R291). -/
def ReadsInput : Instr → Prop
  | .tosym _ | .fromsym _ => False
  | _ => True

/-- The predicate and symbol commands (R17): their result is RESULT. -/
def WritesResult : Instr → Prop
  | .tosym _ | .fromsym _ | .utf8chk | .asciichk | .sepchk | .hexchk | .needesc => True
  | .b64enc _ | .b64dec _ | .b32enc _ | .b32dec _ | .escape | .unescape => False

/-- Req of R298: the capacity a producing command requires. -/
def requiredCapacity (s : State) : Instr → Nat
  | .b64enc _ => 4 * ((s.ilen.toNat + 2) / 3)
  | .b32enc _ => 8 * ((s.ilen.toNat + 4) / 5)
  | .b64dec _ | .b32dec _ => s.ilen.toNat
  | .escape => 6 + 2 * min s.ilen.toNat s.maxlen.toNat
  | .unescape => (s.ilen.toNat - 6) / 2
  | _ => 0

/-- IsHexDigit of R241. -/
abbrev HexDigitByte (upper : Bool) (b : Byte) : Prop :=
  (0x30 ≤ b.toNat ∧ b.toNat ≤ 0x39) ∨ (0x61 ≤ b.toNat ∧ b.toNat ≤ 0x66) ∨
  (upper = true ∧ 0x41 ≤ b.toNat ∧ b.toNat ≤ 0x46)

/-- The family that a grouped codec uses with an alphabet (R150, R95): 6 bits with the 64-symbol ones, 5 bits with BASE32. -/
abbrev Uses (a : Alphabet) (fam : Family) : Prop := (a ≠ .base32 ∧ fam = sixBit) ∨ (a = .base32 ∧ fam = fiveBit)

/-- HexEnvelope of R240, its conditions (a) to (e) in order. -/
abbrev IsEnvelope (upper : Bool) (s : List Byte) : Prop :=
  6 ≤ s.length ∧ s.length % 2 = 0 ∧
  (s[0]? = some 0x24 ∧ s[1]? = some 0x48 ∧ s[2]? = some 0x45 ∧ s[3]? = some 0x58 ∧ s[4]? = some 0x5B) ∧
  s[s.length - 1]? = some 0x5D ∧
  ∀ k b, 5 ≤ k → k + 1 < s.length → s[k]? = some b → HexDigitByte upper b

/-- One well-formed sequence: a leading byte with the length of its class, a second byte in the class's range, and third and fourth
bytes in 0x80 to 0xBF; the nine shapes of R191 to R194. -/
def IsSequence : List Byte → Prop
  | [a] => a.toNat ≤ 0x7F
  | [a, b] => 0xC2 ≤ a.toNat ∧ a.toNat ≤ 0xDF ∧ 0x80 ≤ b.toNat ∧ b.toNat ≤ 0xBF
  | [a, b, c] =>
    ((a.toNat = 0xE0 ∧ 0xA0 ≤ b.toNat ∧ b.toNat ≤ 0xBF) ∨
     (0xE1 ≤ a.toNat ∧ a.toNat ≤ 0xEC ∧ 0x80 ≤ b.toNat ∧ b.toNat ≤ 0xBF) ∨
     (a.toNat = 0xED ∧ 0x80 ≤ b.toNat ∧ b.toNat ≤ 0x9F) ∨
     (0xEE ≤ a.toNat ∧ a.toNat ≤ 0xEF ∧ 0x80 ≤ b.toNat ∧ b.toNat ≤ 0xBF)) ∧
    0x80 ≤ c.toNat ∧ c.toNat ≤ 0xBF
  | [a, b, c, d] =>
    ((a.toNat = 0xF0 ∧ 0x90 ≤ b.toNat ∧ b.toNat ≤ 0xBF) ∨
     (0xF1 ≤ a.toNat ∧ a.toNat ≤ 0xF3 ∧ 0x80 ≤ b.toNat ∧ b.toNat ≤ 0xBF) ∨
     (a.toNat = 0xF4 ∧ 0x80 ≤ b.toNat ∧ b.toNat ≤ 0x8F)) ∧
    0x80 ≤ c.toNat ∧ c.toNat ≤ 0xBF ∧ 0x80 ≤ d.toNat ∧ d.toNat ≤ 0xBF
  | _ => False

/-- A Unicode scalar value (R209). -/
abbrev IsScalar (c : Nat) : Prop := c ≤ 0xD7FF ∨ (0xE000 ≤ c ∧ c ≤ 0x10FFFF)

/-- The shortest UTF-8 form of a code point (R209). The bit layout is the Unicode Standard's; the spec names it and does not print
it. -/
def utf8Bytes (c : Nat) : List Byte :=
  if c ≤ 0x7F then [BitVec.ofNat 8 c]
  else if c ≤ 0x7FF then [BitVec.ofNat 8 (0xC0 + c / 64), BitVec.ofNat 8 (0x80 + c % 64)]
  else if c ≤ 0xFFFF then
    [BitVec.ofNat 8 (0xE0 + c / 4096), BitVec.ofNat 8 (0x80 + c / 64 % 64), BitVec.ofNat 8 (0x80 + c % 64)]
  else
    [BitVec.ofNat 8 (0xF0 + c / 262144), BitVec.ofNat 8 (0x80 + c / 4096 % 64), BitVec.ofNat 8 (0x80 + c / 64 % 64),
      BitVec.ofNat 8 (0x80 + c % 64)]

/-- The fault code that a command reports, 0 for none: the checks (4) to (7) of R292 in their order, each with its condition
(R297, R300, R299, R298). -/
def verdict (s : State) (i : Instr) : BitVec 4 :=
  let inp := inputSeq s
  let overlong := s.params.ibufSize < s.ilen.toNat
  let small := s.params.obufSize < s.ocap.toNat ∨ s.ocap.toNat < requiredCapacity s i
  match i with
  | .tosym .base32 => if 32 ≤ s.arg.toNat then 6 else 0
  | .tosym _ => if 64 ≤ s.arg.toNat then 6 else 0
  | .fromsym _ => 0
  | .utf8chk | .asciichk | .sepchk | .hexchk | .needesc => if overlong then 3 else 0
  | .b64enc _ | .b64dec _ | .b32enc _ | .b32dec _ | .escape => if overlong then 3 else if small then 4 else 0
  | .unescape =>
    if overlong then 3 else if hexEnvelope s.params.hexUpperOk inp = false then 5 else if small then 4 else 0

end Sys2Proof.Spec

open Sys2Proof Sys2Proof.Machine

/-! ### The host port and the step -/

/-- R75, R311: the step serves the oldest pending event, which leaves the list; with none pending the engine is idle and holds all
its state. -/
def Obligations.StepServesTheOldestEvent : Prop :=
  (∀ (s : State) (e : HostEvent) (rest : List HostEvent), s.pending = e :: rest →
    step s = serve e { s with pending := rest, reply := none }) ∧
  (∀ s : State, s.pending = [] → step s = .next s)

/-- R23: a step that serves a write of a word to CMD runs the command the word encodes, in the state without that event. The word
that `withFetchWord` places is served by the very next step. -/
def Obligations.StepRunsDecodedCommand : Prop :=
  (∀ (s : State) (w : Word) (rest : List HostEvent) (i : Instr),
    s.fault = false → s.pending = .regWrite 32 0x00 w :: rest → decode w = .command i →
      step s = exec i { s with pending := rest, reply := none }) ∧
  (∀ (s : State) (w : Word) (i : Instr),
    s.fault = false → decodeTableWord 32 w.toNat = some i →
      step (s.withFetchWord 32 w.toNat) = exec i { s with reply := none })

/-- R294: while FAULT is 1 a write to CMD is ignored whole, whatever the word, and no command has an effect. Register and buffer
accesses keep working: the statements about them have no premise on FAULT. -/
def Obligations.FaultedEngineIgnoresCommands : Prop :=
  (∀ (s : State) (w : Word) (rest : List HostEvent),
    s.fault = true → s.pending = .regWrite 32 0x00 w :: rest →
      step s = .next { s with pending := rest, reply := none }) ∧
  (∀ (s : State) (i : Instr), s.fault = true → exec i s = .next s)

/-! ### Decoding -/

/-- Words of R92 and the illegal words F1 to F9 of 95_test_vectors.md, one or more of every family. -/
def Obligations.TableWordsDecode : Prop :=
  decode 0x00000001 = .command (.tosym .base64) ∧ decode 0x00000502 = .command (.fromsym .lotus64) ∧
  decode 0x00000110 = .command (.b64enc .base64url) ∧ decode 0x00000311 = .command (.b64dec .itoa64) ∧
  decode 0x00000212 = .command (.b32enc .base32) ∧ decode 0x00000213 = .command (.b32dec .base32) ∧
  decode 0x00000020 = .command .utf8chk ∧ decode 0x00000030 = .command .asciichk ∧
  decode 0x00000031 = .command .sepchk ∧ decode 0x00000032 = .command .hexchk ∧
  decode 0x00000033 = .command .needesc ∧ decode 0x00000040 = .command .escape ∧
  decode 0x00000041 = .command .unescape ∧
  decode 0x00000000 = .illegalCommand ∧ decode 0x00000003 = .illegalCommand ∧
  decode 0x00000120 = .illegalCommand ∧ decode 0x00001020 = .illegalCommand ∧ decode 0x80000010 = .illegalCommand ∧
  decode 0x00000610 = .illegalAlpha ∧ decode 0x00000210 = .illegalAlpha ∧ decode 0x00000012 = .illegalAlpha ∧
  decode 0x00000F01 = .illegalAlpha

/-- Decode and encode agree: a word decodes to a command exactly when the command is well formed and the word is its encoding. Every
well-formed command comes back from its encoding, and no bit of a legal word is dropped. -/
def Obligations.DecodeInvertsEncode : Prop :=
  ∀ (w : Word) (i : Instr), decode w = .command i ↔ i.wellFormed = true ∧ encode i = w

/-- R94: when a word is an illegal command, and that it then raises IllegalCommand. The word 0 is one. -/
def Obligations.IllegalWordRaisesIllegalCommand : Prop :=
  (∀ w : Word, decode w = .illegalCommand ↔
    w.extractLsb' 12 20 ≠ 0 ∨
    (w.extractLsb' 0 8).toNat ∉ [0x01, 0x02, 0x10, 0x11, 0x12, 0x13, 0x20, 0x30, 0x31, 0x32, 0x33, 0x40, 0x41] ∨
    ((w.extractLsb' 0 8).toNat ∈ [0x20, 0x30, 0x31, 0x32, 0x33, 0x40, 0x41] ∧ w.extractLsb' 8 4 ≠ 0)) ∧
  decode 0 = .illegalCommand ∧
  (∀ (s : State) (w : Word) (rest : List HostEvent),
    s.fault = false → s.pending = .regWrite 32 0x00 w :: rest → decode w = .illegalCommand →
      step s = .next { s with pending := rest, reply := none, fault := true, cause := 1 })

/-- R95: when a word names an illegal alphabet, and that it then raises IllegalAlpha. -/
def Obligations.IllegalAlphabetRaisesIllegalAlpha : Prop :=
  (∀ w : Word, decode w = .illegalAlpha ↔
    w.extractLsb' 12 20 = 0 ∧
    (((w.extractLsb' 0 8).toNat ∈ [0x01, 0x02] ∧ 6 ≤ (w.extractLsb' 8 4).toNat) ∨
     ((w.extractLsb' 0 8).toNat ∈ [0x10, 0x11] ∧ (w.extractLsb' 8 4).toNat ∉ [0, 1, 3, 4, 5]) ∨
     ((w.extractLsb' 0 8).toNat ∈ [0x12, 0x13] ∧ (w.extractLsb' 8 4).toNat ≠ 2))) ∧
  (∀ (s : State) (w : Word) (rest : List HostEvent),
    s.fault = false → s.pending = .regWrite 32 0x00 w :: rest → decode w = .illegalAlpha →
      step s = .next { s with pending := rest, reply := none, fault := true, cause := 2 })

/-! ### Registers -/

/-- R22 to R33: what a read of each register returns, as a number: the stored fields at their places and 0 elsewhere; the read changes
nothing. -/
def Obligations.RegisterReadReturnsStoredFields : Prop :=
  ∀ (s : State) (rest : List HostEvent) (off value : Nat), s.params.SizesLegal →
    (off, value) ∈
      [(0x00, 0), (0x04, 16 * s.cause.toNat + (if s.fault then 1 else 0)), (0x08, s.ilen.toNat), (0x0C, s.ocap.toNat),
       (0x10, s.olen.toNat), (0x14, s.result.toNat), (0x18, s.sep.toNat), (0x1C, if s.asciiOnly then 1 else 0),
       (0x20, s.maxlen.toNat), (0x24, s.arg.toNat), (0x28, s.params.ibufSize), (0x2C, s.params.obufSize)] →
    s.pending = .regRead 32 off :: rest →
      ∃ v : Word, v.toNat = value ∧ step s = .next { s with pending := rest, reply := some (.word v) }

/-- R24 to R33, R35: a write to a read/write register stores its defined bits and changes nothing else, whatever FAULT is, and a write to
STATUS, OLEN, RESULT, IBUFSZ or OBUFSZ is ignored. -/
def Obligations.RegisterWriteStoresDefinedBits : Prop :=
  ∀ (s : State) (v : Word) (rest : List HostEvent),
    (s.pending = .regWrite 32 0x08 v :: rest → step s = .next { s with pending := rest, reply := none, ilen := v }) ∧
    (s.pending = .regWrite 32 0x0C v :: rest → step s = .next { s with pending := rest, reply := none, ocap := v }) ∧
    (s.pending = .regWrite 32 0x20 v :: rest → step s = .next { s with pending := rest, reply := none, maxlen := v }) ∧
    (s.pending = .regWrite 32 0x18 v :: rest →
      step s = .next { s with pending := rest, reply := none, sep := v.extractLsb' 0 8 }) ∧
    (s.pending = .regWrite 32 0x1C v :: rest →
      step s = .next { s with pending := rest, reply := none, asciiOnly := decide (v.toNat % 2 = 1) }) ∧
    (s.pending = .regWrite 32 0x24 v :: rest →
      step s = .next { s with pending := rest, reply := none, arg := v.extractLsb' 0 8 }) ∧
    (∀ off ∈ [0x04, 0x10, 0x14, 0x28, 0x2C], s.pending = .regWrite 32 off v :: rest →
      step s = .next { s with pending := rest, reply := none })

/-- R33: IBUFSZ and OBUFSZ read the parameters, host writes to them are ignored, and no step changes the parameters. -/
def Obligations.SizeRegistersReadTheParameters : Prop :=
  (∀ s : State, s.params.SizesLegal →
    (readReg .ibufsz s).toNat = s.params.ibufSize ∧ (readReg .obufsz s).toNat = s.params.obufSize) ∧
  (∀ (s : State) (v : Word) (rest : List HostEvent) (off : Nat), off ∈ [0x28, 0x2C] →
    s.pending = .regWrite 32 off v :: rest → step s = .next { s with pending := rest, reply := none }) ∧
  (∀ s t : State, step s = .next t → t.params = s.params)

/-- R34: a register access at an offset outside the table of R22, or of a width other than 32 bits, is refused, and no other register
access is. -/
def Obligations.StrayRegisterAccessIsRefused : Prop :=
  ∀ (s : State) (rest : List HostEvent) (bits off : Nat) (v : Word),
    ((bits ≠ 32 ∨ 0x30 ≤ off ∨ off % 4 ≠ 0) →
      (s.pending = .regWrite bits off v :: rest → step s = .refused (.strayRegister bits off)) ∧
      (s.pending = .regRead bits off :: rest → step s = .refused (.strayRegister bits off))) ∧
    (bits = 32 → off < 0x30 → off % 4 = 0 →
      (s.pending = .regWrite bits off v :: rest → ∃ t, step s = .next t) ∧
      (s.pending = .regRead bits off :: rest → ∃ t, step s = .next t))

/-! ### Buffers -/

/-- R62: a buffer transaction at an index at or beyond the buffer's size is refused. So is an access of a width other than one byte,
which R61 makes no transaction; that a model refuses it as R62 says is the model's choice (log entry 7). -/
def Obligations.StrayBufferAccessIsRefused : Prop :=
  ∀ (s : State) (rest : List HostEvent) (bits a : Nat) (b : Byte),
    ((bits ≠ 8 ∨ s.params.ibufSize ≤ a) →
      (s.pending = .ibufWrite bits a b :: rest → step s = .refused (.strayIbuf bits a)) ∧
      (s.pending = .ibufRead bits a :: rest → step s = .refused (.strayIbuf bits a))) ∧
    ((bits ≠ 8 ∨ s.params.obufSize ≤ a) →
      (s.pending = .obufWrite bits a b :: rest → step s = .refused (.strayObuf bits a)) ∧
      (s.pending = .obufRead bits a :: rest → step s = .refused (.strayObuf bits a)))

/-- R61: a buffer write stores its byte at its index and changes nothing else; a read of a stored byte returns it and changes
nothing. -/
def Obligations.BufferTransactionsMoveOneByte : Prop :=
  ∀ (s : State) (rest : List HostEvent) (a : Nat) (b : Byte),
    (a < s.params.ibufSize → s.pending = .ibufWrite 8 a b :: rest →
      ∃ t, step s = .next t ∧ t = { s with pending := rest, reply := none, ibuf := t.ibuf } ∧
        t.ibuf.read a = some b ∧ ∀ k, k ≠ a → t.ibuf.read k = s.ibuf.read k) ∧
    (a < s.params.obufSize → s.pending = .obufWrite 8 a b :: rest →
      ∃ t, step s = .next t ∧ t = { s with pending := rest, reply := none, obuf := t.obuf } ∧
        t.obuf.read a = some b ∧ ∀ k, k ≠ a → t.obuf.read k = s.obuf.read k) ∧
    (a < s.params.ibufSize → s.ibuf.read a = some b → s.pending = .ibufRead 8 a :: rest →
      step s = .next { s with pending := rest, reply := some (.byte b), draws := s.draws + 1 }) ∧
    (a < s.params.obufSize → s.obuf.read a = some b → s.pending = .obufRead 8 a :: rest →
      step s = .next { s with pending := rest, reply := some (.byte b), draws := s.draws + 1 })

/-- R81, R14: a read of a byte that holds UNSPEC completes with a free value, and the next read of one has another free value. The
numbering of the draws is the model's choice (log entry 2). -/
def Obligations.UnwrittenByteReadsAFreeValue : Prop :=
  ∀ (s : State) (rest : List HostEvent) (a : Nat),
    (a < s.params.ibufSize → s.ibuf.read a = none → s.pending = .ibufRead 8 a :: rest →
      step s = .next { s with
        pending := rest, reply := some (.byte (Config.unspecByte s.draws)), draws := s.draws + 1 }) ∧
    (a < s.params.obufSize → s.obuf.read a = none → s.pending = .obufRead 8 a :: rest →
      step s = .next { s with
        pending := rest, reply := some (.byte (Config.unspecByte s.draws)), draws := s.draws + 1 })

/-! ### Reset -/

/-- R50: the state after reset, as the host reads the registers, with every buffer byte UNSPEC. -/
def Obligations.ResetStateHasTheTableValues : Prop :=
  (∀ r : Reg, r ≠ .ibufsz → r ≠ .obufsz → readReg r State.reset = 0) ∧
  (readReg .ibufsz State.reset).toNat = Config.params.ibufSize ∧
  (readReg .obufsz State.reset).toNat = Config.params.obufSize ∧
  ∀ a, State.reset.ibuf.read a = none ∧ State.reset.obuf.read a = none

/-- R330: the platform's reset puts every register at its reset value, clears FAULT and CAUSE, and leaves every buffer byte UNSPEC,
whatever the state before. What the host has still pending stays pending, which is the model's choice (log entry 8). -/
def Obligations.PlatformResetRestoresTheResetState : Prop :=
  ∀ (s : State) (rest : List HostEvent), s.pending = .platformReset :: rest →
    ∃ t, step s = .next t ∧ t = { State.resetWith s.params with pending := rest, draws := s.draws } ∧
      (∀ r : Reg, r ≠ .ibufsz → r ≠ .obufsz → readReg r t = 0) ∧ t.fault = false ∧ t.cause = 0 ∧
      ∀ a, t.ibuf.read a = none ∧ t.obuf.read a = none

/-- R301, R330: no step but the platform's reset clears FAULT or changes CAUSE once a fault is recorded. -/
def Obligations.OnlyResetClearsTheFault : Prop :=
  ∀ s t : State, s.fault = true → step s = .next t →
    (t.fault = true ∧ t.cause = s.cause) ∨ ∃ rest, s.pending = .platformReset :: rest

/-! ### The invariant -/

/-- The invariant holds at reset. -/
def Obligations.ResetStateMeetsTheInvariant : Prop := State.reset.Inv

/-- Every step keeps the invariant: STATUS legal (R24, R291), buffers within their sizes (R40, R41), OLEN <= OBUF_SIZE (R27, R298),
RESULT a boolean, an index or a symbol (R32), parameters that meet R6. That the parameters stand in State and the canonical form of
the buffers' lists are the model's choices (log entries 5 and 4). -/
def Obligations.EveryStepKeepsTheInvariant : Prop :=
  ∀ s t : State, s.Inv → step s = .next t → t.Inv

/-! ### What commands read and write -/

/-- R36: the write sets. `draws`, which is no state of the engine, may advance. -/
def Obligations.CommandWriteSets : Prop :=
  ∀ (i : Instr) (s t : State), exec i s = .next t →
    (s.fault = true → t = s) ∧
    (s.fault = false → t.fault = true → t = { s with fault := true, cause := t.cause, draws := t.draws }) ∧
    (s.fault = false → t.fault = false → Spec.WritesResult i → t = { s with result := t.result, draws := t.draws }) ∧
    (s.fault = false → t.fault = false → ¬Spec.WritesResult i →
      t = { s with olen := t.olen, obuf := t.obuf, draws := t.draws } ∧
      ∀ p, s.ocap.toNat ≤ p → t.obuf.read p = s.obuf.read p)

/-- R37, R72, R82: what a command does is a function of IBUF[0..ILEN) and the configuration alone. Two states that agree on them and on
the parameters, and may differ in IBUF beyond ILEN, in OBUF, OLEN and RESULT, give the same fault or the same result. -/
def Obligations.CommandsDependOnInputAndConfigurationOnly : Prop :=
  ∀ (i : Instr) (s s' t t' : State),
    s.fault = false → s'.fault = false → s.params = s'.params → inputSeq s = inputSeq s' →
    s.ilen = s'.ilen → s.ocap = s'.ocap → s.sep = s'.sep → s.asciiOnly = s'.asciiOnly → s.maxlen = s'.maxlen →
    s.arg = s'.arg → exec i s = .next t → exec i s' = .next t' →
      t.fault = t'.fault ∧ (t.fault = true → t.cause = t'.cause) ∧
      (t.fault = false → Spec.WritesResult i → t.result = t'.result) ∧
      (t.fault = false → ¬Spec.WritesResult i →
        t.olen = t'.olen ∧ ∀ p, p < s.ocap.toNat → t.obuf.read p = t'.obuf.read p)

/-- R291, R292: every well-formed command, in every state without a recorded fault, completes, and reports the first failing check in the
rules' order, with its code, or none. -/
def Obligations.CommandsFaultExactlyWhenTheRulesSay : Prop :=
  ∀ (i : Instr) (s : State), i.wellFormed = true → s.fault = false →
    ∃ t, exec i s = .next t ∧ (Spec.verdict s i = 0 → t.fault = false) ∧
      (Spec.verdict s i ≠ 0 → t.fault = true ∧ t.cause = Spec.verdict s i)

/-! ### Faults -/

/-- R297: every command that reads IBUF raises LengthFault when ILEN > IBUF_SIZE; ILEN = IBUF_SIZE is legal: no command then
reports cause 3. -/
def Obligations.OverlongInputRaisesLengthFault : Prop :=
  (∀ (i : Instr) (s : State), i.wellFormed = true → Spec.ReadsInput i → s.fault = false →
    s.params.ibufSize < s.ilen.toNat → ∃ t, exec i s = .next t ∧ Spec.Faulted s t 3 0) ∧
  (∀ (i : Instr) (s t : State), s.fault = false → s.ilen.toNat = s.params.ibufSize → exec i s = .next t →
    t.fault = true → t.cause ≠ 3)

/-- R298: a producing command raises CapacityFault when OCAP > OBUF_SIZE or OCAP < Req; OCAP = Req is legal. UNESCAPE gets that far on
an envelope only (R292). -/
def Obligations.IllegalCapacityRaisesCapacityFault : Prop :=
  ∀ (i : Instr) (s : State), i.wellFormed = true → ¬Spec.WritesResult i → Spec.Ready s →
    (i = .unescape → hexEnvelope s.params.hexUpperOk (inputSeq s) = true) →
    ((s.params.obufSize < s.ocap.toNat ∨ s.ocap.toNat < Spec.requiredCapacity s i) →
      ∃ t, exec i s = .next t ∧ Spec.Faulted s t 4 (if i = .unescape then s.ilen.toNat else 0)) ∧
    (s.ocap.toNat ≤ s.params.obufSize → s.ocap.toNat = Spec.requiredCapacity s i →
      ∃ t, exec i s = .next t ∧ t.fault = false)

/-- R299: UNESCAPE raises NotEnvelope when the input is no envelope, whatever OCAP is. -/
def Obligations.UnescapeOfNonEnvelopeRaisesNotEnvelope : Prop :=
  ∀ s : State, Spec.Ready s → hexEnvelope s.params.hexUpperOk (inputSeq s) = false →
    ∃ t, exec .unescape s = .next t ∧ Spec.Faulted s t 5 s.ilen.toNat

/-- R300: TOSYM raises IndexRange when ARG.BYTE is 64 or more, 32 or more for BASE32. -/
def Obligations.TosymIndexBeyondAlphabetRaisesIndexRange : Prop :=
  ∀ (a : Alphabet) (s : State), s.fault = false → (if a = .base32 then 32 else 64) ≤ s.arg.toNat →
    ∃ t, exec (.tosym a) s = .next t ∧ Spec.Faulted s t 6 0

/-! ### Alphabets -/

/-- The formulas "sym = i + k" of R122 to R127, and the sizes of R121. R122 and R123 mark the order of their first 62 symbols as general
knowledge, and R124 to R127 read it off the source's charset strings. -/
def Obligations.RomSymbolsFollowTheFormulas : Prop :=
  ∀ i : Nat, i < 64 →
    (toSym .base64 i).toNat =
      (if i ≤ 25 then i + 65 else if i ≤ 51 then i + 71 else if i ≤ 61 then i - 4 else if i = 62 then 0x2B else 0x2F) ∧
    (toSym .base64url i).toNat =
      (if i ≤ 25 then i + 65 else if i ≤ 51 then i + 71 else if i ≤ 61 then i - 4 else if i = 62 then 0x2D else 0x5F) ∧
    (i < 32 → (toSym .base32 i).toNat = if i ≤ 25 then i + 65 else i + 24) ∧
    (toSym .itoa64 i).toNat = (if i ≤ 11 then i + 46 else if i ≤ 37 then i + 53 else i + 59) ∧
    (toSym .bcrypt64 i).toNat =
      (if i = 0 then 0x2E else if i = 1 then 0x2F else if i ≤ 27 then i + 63 else if i ≤ 53 then i + 69 else i - 6) ∧
    (toSym .lotus64 i).toNat =
      (if i ≤ 9 then i + 48 else if i ≤ 35 then i + 55 else if i ≤ 61 then i + 61 else if i = 62 then 0x2B else 0x2F)

/-- R128: FromSym gives the index of a symbol and 0 for every other byte, among them PAD, the bytes 0x80 to 0xFF and the control
bytes. -/
def Obligations.FromSymIsTheTotalInverse : Prop :=
  ∀ (a : Alphabet) (b : Byte),
    (∀ i, i < alphabetSize a → toSym a i = b → fromSym a b = i) ∧
    ((∀ i, i < alphabetSize a → toSym a i ≠ b) → fromSym a b = 0) ∧
    (b = 0x3D ∨ 0x80 ≤ b.toNat ∨ b.toNat < 0x20 ∨ b = 0x7F →
      (∀ i, i < alphabetSize a → toSym a i ≠ b) ∧ fromSym a b = 0)

/-- R130: the inverse laws of an alphabet. -/
def Obligations.SymbolsRoundTrip : Prop :=
  ∀ a : Alphabet,
    (∀ i, i < alphabetSize a → fromSym a (toSym a i) = i) ∧
    (∀ b, fromSym a b < alphabetSize a) ∧
    (∀ b, toSym a (fromSym a b) = b ↔ ∃ i, i < alphabetSize a ∧ toSym a i = b)

/-- R135: TOSYM on an index of the alphabet leaves its symbol in RESULT and changes nothing else. -/
def Obligations.TosymGivesTheSymbol : Prop :=
  ∀ (a : Alphabet) (s : State), s.fault = false → s.arg.toNat < (if a = .base32 then 32 else 64) →
    exec (.tosym a) s = .next { s with result := toSym a s.arg.toNat }

/-- R138: FROMSYM leaves the index of the symbol in RESULT, for every byte, and changes nothing else. -/
def Obligations.FromsymGivesTheIndex : Prop :=
  ∀ (a : Alphabet) (s : State), s.fault = false →
    ∃ r : Byte, r.toNat = fromSym a s.arg ∧ exec (.fromsym a) s = .next { s with result := r }

/-! ### The transcoder -/

/-- R152, written out: the symbol indices of a group as slices of its bytes, zero-filled where the input has ended. -/
def Obligations.SymbolIndicesAreTheBitSlices : Prop :=
  (∀ (s : List Byte) (g : Nat) (f0 f1 f2 : Byte),
    f0 = s.getD (3 * g) 0 → f1 = s.getD (3 * g + 1) 0 → f2 = s.getD (3 * g + 2) 0 →
      symbolIndex sixBit s g 0 = (f0.extractLsb' 2 6).toNat ∧
      symbolIndex sixBit s g 1 = (f0.extractLsb' 0 2 ++ f1.extractLsb' 4 4).toNat ∧
      symbolIndex sixBit s g 2 = (f1.extractLsb' 0 4 ++ f2.extractLsb' 6 2).toNat ∧
      symbolIndex sixBit s g 3 = (f2.extractLsb' 0 6).toNat) ∧
  (∀ (s : List Byte) (g : Nat) (f0 f1 f2 f3 f4 : Byte),
    f0 = s.getD (5 * g) 0 → f1 = s.getD (5 * g + 1) 0 → f2 = s.getD (5 * g + 2) 0 → f3 = s.getD (5 * g + 3) 0 →
    f4 = s.getD (5 * g + 4) 0 →
      symbolIndex fiveBit s g 0 = (f0.extractLsb' 3 5).toNat ∧
      symbolIndex fiveBit s g 1 = (f0.extractLsb' 0 3 ++ f1.extractLsb' 6 2).toNat ∧
      symbolIndex fiveBit s g 2 = (f1.extractLsb' 1 5).toNat ∧
      symbolIndex fiveBit s g 3 = (f1.extractLsb' 0 1 ++ f2.extractLsb' 4 4).toNat ∧
      symbolIndex fiveBit s g 4 = (f2.extractLsb' 0 4 ++ f3.extractLsb' 7 1).toNat ∧
      symbolIndex fiveBit s g 5 = (f3.extractLsb' 2 5).toNat ∧
      symbolIndex fiveBit s g 6 = (f3.extractLsb' 0 2 ++ f4.extractLsb' 5 3).toNat ∧
      symbolIndex fiveBit s g 7 = (f4.extractLsb' 0 5).toNat)

/-- R153: the number of data symbols and the encoded length, the least multiple of the group that holds them. -/
def Obligations.EncodedLengthIsRoundedUpToTheGroup : Prop :=
  ∀ n : Nat,
    dataSymbols sixBit n = (8 * n + 5) / 6 ∧ encLen sixBit n = 4 * ((n + 2) / 3) ∧
    4 * ((dataSymbols sixBit n + 3) / 4) = 4 * ((n + 2) / 3) ∧
    dataSymbols fiveBit n = (8 * n + 4) / 5 ∧ encLen fiveBit n = 8 * ((n + 4) / 5) ∧
    8 * ((dataSymbols fiveBit n + 7) / 8) = 8 * ((n + 4) / 5)

/-- R154: every position of the encoded output is a data symbol or PAD, the symbols that PAD replaces are exactly those that start at or
after the input's last bit, that is at bit `bits * p` for position `p`, and so are all zero-fill, and the numbers of pads. -/
def Obligations.EncodedOutputIsSymbolsThenPads : Prop :=
  ∀ (fam : Family) (a : Alphabet) (s : List Byte), Spec.Uses a fam →
    (encodeBytes fam a s).length = encLen fam s.length ∧
    (∀ p, p < dataSymbols fam s.length →
      (encodeBytes fam a s)[p]? = some (toSym a (symbolIndex fam s (p / fam.gs) (p % fam.gs)))) ∧
    (∀ p, dataSymbols fam s.length ≤ p → p < encLen fam s.length →
      (encodeBytes fam a s)[p]? = some 0x3D ∧ symbolIndex fam s (p / fam.gs) (p % fam.gs) = 0) ∧
    (∀ p, dataSymbols fam s.length ≤ p ↔ 8 * s.length ≤ fam.bits * p) ∧
    (fam = sixBit → encLen fam s.length - dataSymbols fam s.length = [0, 2, 1].getD (s.length % 3) 0) ∧
    (fam = fiveBit → encLen fam s.length - dataSymbols fam s.length = [0, 6, 4, 3, 1].getD (s.length % 5) 0)

/-- R155, R156: B64ENC and B32ENC complete on every input within IBUF with a legal capacity, leave Encode(a, IN) in OBUF and its length
in OLEN, the tail UNSPEC, and change nothing else. -/
def Obligations.EncodeCommandsProduceTheEncoding : Prop :=
  (∀ (a : Alphabet) (s : State), a ≠ .base32 → Spec.Ready s → Spec.Fits s (4 * ((s.ilen.toNat + 2) / 3)) →
    ∃ t, exec (.b64enc a) s = .next t ∧
      Spec.Produced s t (encodeBytes sixBit a (inputSeq s)) none s.ilen.toNat ∧
      t.olen.toNat = 4 * ((s.ilen.toNat + 2) / 3)) ∧
  (∀ s : State, Spec.Ready s → Spec.Fits s (8 * ((s.ilen.toNat + 4) / 5)) →
    ∃ t, exec (.b32enc .base32) s = .next t ∧
      Spec.Produced s t (encodeBytes fiveBit .base32 (inputSeq s)) none s.ilen.toNat ∧
      t.olen.toNat = 8 * ((s.ilen.toNat + 4) / 5))

/-- R161, written out: the raw bytes of a group as slices of its decoded symbols, which are 0 where the input has ended. -/
def Obligations.DecodedBytesAreTheBitSlices : Prop :=
  (∀ (a : Alphabet) (s : List Byte) (g k : Nat) (y : Nat → BitVec 6), a ≠ .base32 →
    (∀ j, y j = BitVec.ofNat 6 (match s[4 * g + j]? with | some b => fromSym a b | none => 0)) →
    k < 3 → 3 * g + k < decLen sixBit s →
      (decodeBytes sixBit a s)[3 * g + k]? = [y 0 ++ (y 1).extractLsb' 4 2, (y 1).extractLsb' 0 4 ++ (y 2).extractLsb' 2 4,
        (y 2).extractLsb' 0 2 ++ y 3][k]?) ∧
  (∀ (s : List Byte) (g k : Nat) (y : Nat → BitVec 5),
    (∀ j, y j = BitVec.ofNat 5 (match s[8 * g + j]? with | some b => fromSym .base32 b | none => 0)) →
    k < 5 → 5 * g + k < decLen fiveBit s →
      (decodeBytes fiveBit .base32 s)[5 * g + k]? = [y 0 ++ (y 1).extractLsb' 2 3,
        ((y 1).extractLsb' 0 2 ++ y 2 : BitVec 7) ++ (y 3).extractLsb' 4 1,
        (y 3).extractLsb' 0 4 ++ (y 4).extractLsb' 1 4,
        ((y 4).extractLsb' 0 1 ++ y 5 : BitVec 6) ++ (y 6).extractLsb' 3 2,
        (y 6).extractLsb' 0 3 ++ y 7][k]?)

/-- R160: t is the index of the first PAD of the whole input, or its length, and the decoded length is t * bits div 8. -/
def Obligations.FirstPadFixesTheDecodedLength : Prop :=
  ∀ (a : Alphabet) (s : List Byte), ∃ t, t ≤ s.length ∧ (∀ k, k < t → s[k]? ≠ some 0x3D) ∧
    (t < s.length → s[t]? = some 0x3D) ∧
    (decodeBytes sixBit a s).length = t * 6 / 8 ∧ (decodeBytes fiveBit a s).length = t * 5 / 8

/-- R162: nothing at or after the first PAD can influence a logical output byte. -/
def Obligations.DecodingIgnoresWhatFollowsTheFirstPad : Prop :=
  ∀ (fam : Family) (a : Alphabet) (u v : List Byte), Spec.Uses a fam → (0x3D : Byte) ∉ u →
    decodeBytes fam a (u ++ 0x3D :: v) = decodeBytes fam a u

/-- R165, R166: B64DEC and B32DEC complete on every input within IBUF, whatever its bytes, with a capacity of ILEN or more, leave
Decode(a, IN) in OBUF and its length in OLEN, the tail UNSPEC, and change nothing else. -/
def Obligations.DecodeCommandsProduceTheDecoding : Prop :=
  (∀ (a : Alphabet) (s : State), a ≠ .base32 → Spec.Ready s → Spec.Fits s s.ilen.toNat →
    ∃ t, exec (.b64dec a) s = .next t ∧
      Spec.Produced s t (decodeBytes sixBit a (inputSeq s)) none s.ilen.toNat) ∧
  (∀ s : State, Spec.Ready s → Spec.Fits s s.ilen.toNat →
    ∃ t, exec (.b32dec .base32) s = .next t ∧
      Spec.Produced s t (decodeBytes fiveBit .base32 (inputSeq s)) none s.ilen.toNat)

/-- R170: Decode(a, Encode(a, x)) = x for every alphabet of either family and every byte sequence. -/
def Obligations.DecodingInvertsEncoding : Prop :=
  ∀ (a : Alphabet) (x : List Byte),
    (a ≠ .base32 → decodeBytes sixBit a (encodeBytes sixBit a x) = x) ∧
    decodeBytes fiveBit .base32 (encodeBytes fiveBit .base32 x) = x

/-- R170 at the command level: encode, move OBUF[0..OLEN) to IBUF with ILEN = OLEN, decode with OCAP >= ILEN: OLEN and OBUF[0..OLEN)
are the length and the bytes of the first input. -/
def Obligations.EncodeThenDecodeCommandsReturnTheInput : Prop :=
  ∀ (a : Alphabet) (enc dec : Instr) (s s1 t : State),
    (a ≠ .base32 ∧ enc = .b64enc a ∧ dec = .b64dec a) ∨ (enc = .b32enc .base32 ∧ dec = .b32dec .base32) →
    s.fault = false → exec enc s = .next s1 → s1.fault = false →
    Spec.Ready t → Spec.Fits t t.ilen.toNat → t.ilen = s1.olen →
    (∀ k, k < t.ilen.toNat → t.ibuf.read k = s1.obuf.read k) →
      ∃ t1, exec dec t = .next t1 ∧ t1.fault = false ∧ t1.olen = s.ilen ∧
        ∀ k, k < s.ilen.toNat → t1.obuf.read k = (inputSeq s)[k]?

/-! ### The UTF-8 validator -/

/-- R191 to R193, R199: the class table: the class of every byte, and the length and the second-byte range of each class. The table is
the Unicode Standard's, which the spec supplies from general knowledge. -/
def Obligations.LeadingByteClassesFollowTheTable : Prop :=
  (∀ b : Byte,
    (leadClass b = none ↔ (0x80 ≤ b.toNat ∧ b.toNat ≤ 0xC1) ∨ 0xF5 ≤ b.toNat) ∧
    (leadClass b = some .single ↔ b.toNat ≤ 0x7F) ∧
    (leadClass b = some (.multi .c1) ↔ 0xC2 ≤ b.toNat ∧ b.toNat ≤ 0xDF) ∧
    (leadClass b = some (.multi .c2) ↔ b.toNat = 0xE0) ∧
    (leadClass b = some (.multi .c3) ↔ 0xE1 ≤ b.toNat ∧ b.toNat ≤ 0xEC) ∧
    (leadClass b = some (.multi .c4) ↔ b.toNat = 0xED) ∧
    (leadClass b = some (.multi .c5) ↔ 0xEE ≤ b.toNat ∧ b.toNat ≤ 0xEF) ∧
    (leadClass b = some (.multi .c6) ↔ b.toNat = 0xF0) ∧
    (leadClass b = some (.multi .c7) ↔ 0xF1 ≤ b.toNat ∧ b.toNat ≤ 0xF3) ∧
    (leadClass b = some (.multi .c8) ↔ b.toNat = 0xF4)) ∧
  seqLen .single = 1 ∧
  [MultiClass.c1, .c2, .c3, .c4, .c5, .c6, .c7, .c8].map (fun k => (seqLen (.multi k), lo2 k, hi2 k)) =
    [(2, 0x80, 0xBF), (3, 0xA0, 0xBF), (3, 0x80, 0xBF), (3, 0x80, 0x9F), (3, 0x80, 0xBF), (4, 0x90, 0xBF),
      (4, 0x80, 0xBF), (4, 0x80, 0x8F)]

/-- R190: an input is well formed exactly when it is a concatenation of zero or more well-formed sequences with nothing left over. -/
def Obligations.WellFormedMeansConcatenationOfSequences : Prop :=
  ∀ s : List Byte, wellFormedUtf8 s = true ↔ ∃ qs : List (List Byte), (∀ q ∈ qs, Spec.IsSequence q) ∧ qs.flatten = s

/-- R196: the empty sequence is well formed, and after a well-formed beginning the verdict is that of the rest. -/
def Obligations.WellFormednessIsCompositional : Prop :=
  wellFormedUtf8 [] = true ∧
  ∀ u v : List Byte, wellFormedUtf8 u = true → wellFormedUtf8 (u ++ v) = wellFormedUtf8 v

/-- R208: the byte-serial machine of R205 to R207 accepts exactly the inputs that the scan of R195 accepts. -/
def Obligations.FiniteStateFormEqualsTheScan : Prop :=
  ∀ s : List Byte, fsmAccepts s = wellFormedUtf8 s

/-- R209: the accepted inputs are exactly the UTF-8 encodings, in shortest form, of sequences of Unicode scalar values. The rule is
marked general knowledge. -/
def Obligations.AcceptedInputsEncodeScalarValues : Prop :=
  ∀ s : List Byte, wellFormedUtf8 s = true ↔
    ∃ cs : List Nat, (∀ c ∈ cs, Spec.IsScalar c) ∧ cs.flatMap Spec.utf8Bytes = s

/-- R200: UTF8CHK completes on every input within IBUF with the verdict in RESULT, and changes nothing else. -/
def Obligations.Utf8chkGivesTheVerdict : Prop :=
  ∀ s : State, Spec.Ready s →
    exec .utf8chk s = .next { s with
      result := if wellFormedUtf8 (inputSeq s) then 1 else 0, draws := s.draws + s.ilen.toNat }

/-! ### The escaping policy -/

/-- R230, R231: ASCIICHK completes on every input within IBUF; RESULT is 1 exactly when every byte lies in 0x20 to 0x7E, else 0; nothing
else changes. -/
def Obligations.AsciichkTestsPrintability : Prop :=
  ∀ s : State, Spec.Ready s →
    ∃ r : Byte, exec .asciichk s = .next { s with result := r, draws := s.draws + s.ilen.toNat } ∧
      (r = 0 ∨ r = 1) ∧ (r = 1 ↔ ∀ b ∈ inputSeq s, 0x20 ≤ b.toNat ∧ b.toNat ≤ 0x7E)

/-- R235, R236: SEPCHK completes on every input within IBUF; RESULT is 1 exactly when some byte equals SEP.BYTE, else 0; nothing else
changes. -/
def Obligations.SepchkTestsForTheSeparator : Prop :=
  ∀ s : State, Spec.Ready s →
    ∃ r : Byte, exec .sepchk s = .next { s with result := r, draws := s.draws + s.ilen.toNat } ∧
      (r = 0 ∨ r = 1) ∧ (r = 1 ↔ s.sep ∈ inputSeq s)

/-- R240 to R242: HEXCHK completes on every input within IBUF; RESULT is 1 exactly when the conditions (a) to (e) hold, else 0; nothing
else changes. -/
def Obligations.HexchkTestsTheEnvelopeConditions : Prop :=
  ∀ s : State, Spec.Ready s →
    ∃ r : Byte, exec .hexchk s = .next { s with result := r, draws := s.draws + s.ilen.toNat } ∧
      (r = 0 ∨ r = 1) ∧ (r = 1 ↔ Spec.IsEnvelope s.params.hexUpperOk (inputSeq s))

/-- R245, R246: NEEDESC completes on every input within IBUF; RESULT is 1 exactly when the input is not printable in the chosen mode, or
holds the separator, or is an envelope, else 0; nothing else changes. -/
def Obligations.NeedescGivesTheOrOfTheThreeFacts : Prop :=
  ∀ s : State, Spec.Ready s →
    ∃ r : Byte, exec .needesc s = .next { s with result := r, draws := s.draws + s.ilen.toNat } ∧
      (r = 0 ∨ r = 1) ∧
      (r = 1 ↔
        (s.asciiOnly = true ∧ ¬∀ b ∈ inputSeq s, 0x20 ≤ b.toNat ∧ b.toNat ≤ 0x7E) ∨
        (s.asciiOnly = false ∧ wellFormedUtf8 (inputSeq s) = false) ∨
        s.sep ∈ inputSeq s ∨ Spec.IsEnvelope s.params.hexUpperOk (inputSeq s))

/-- R247: NEEDESC equals the host issuing the component commands on the same input and combining their results. -/
def Obligations.NeedescEqualsItsComponents : Prop :=
  ∀ s : State, Spec.Ready s →
    ∃ u a c h n : State, exec .utf8chk s = .next u ∧ exec .asciichk s = .next a ∧ exec .sepchk s = .next c ∧
      exec .hexchk s = .next h ∧ exec .needesc s = .next n ∧
      (n.result = 1 ↔ (if s.asciiOnly then a.result = 0 else u.result = 0) ∨ c.result = 1 ∨ h.result = 1)

/-! ### The hex escape -/

/-- R261, R262: the digits of a nibble, lower case, and that decoding a digit inverts encoding it; both cases decode to the same nibble. -/
def Obligations.HexDigitsAreLowerCaseAndInvertible : Prop :=
  ∀ v : BitVec 4,
    (hexDigit v).toNat = (if v.toNat ≤ 9 then 0x30 + v.toNat else 0x61 + (v.toNat - 10)) ∧
    nibble (hexDigit v) = v ∧
    (10 ≤ v.toNat → nibble (BitVec.ofNat 8 (0x41 + (v.toNat - 10))) = v)

/-- R266: ESCAPE completes on every input within IBUF with a legal capacity. It reads the first min(ILEN, MAXLEN) bytes, leaves their
envelope in OBUF and its length in OLEN, the tail UNSPEC, and changes nothing else. -/
def Obligations.EscapeProducesTheEnvelope : Prop :=
  ∀ (s : State) (m : Nat), m = min s.ilen.toNat s.maxlen.toNat → Spec.Ready s → Spec.Fits s (6 + 2 * m) →
    ∃ t out, exec .escape s = .next t ∧ Spec.Produced s t out none m ∧ out.length = 6 + 2 * m ∧
      out.take 5 = [0x24, 0x48, 0x45, 0x58, 0x5B] ∧ out[5 + 2 * m]? = some 0x5D ∧
      ∀ k b, k < m → (inputSeq s)[k]? = some b →
        out[5 + 2 * k]? = some (hexDigit (b.extractLsb' 4 4)) ∧ out[6 + 2 * k]? = some (hexDigit (b.extractLsb' 0 4))

/-- R271: UNESCAPE completes on every envelope within IBUF with a legal capacity, leaves the payload in OBUF and its length in OLEN,
zeroes OBUF[OLEN..OCAP), and changes nothing else. -/
def Obligations.UnescapeProducesThePayloadAndZeroes : Prop :=
  ∀ s : State, Spec.Ready s → hexEnvelope s.params.hexUpperOk (inputSeq s) = true →
    Spec.Fits s ((s.ilen.toNat - 6) / 2) →
    ∃ t out, exec .unescape s = .next t ∧ Spec.Produced s t out (some 0) s.ilen.toNat ∧
      out.length = (s.ilen.toNat - 6) / 2 ∧
      ∀ k hi lo, k < out.length → (inputSeq s)[5 + 2 * k]? = some hi → (inputSeq s)[6 + 2 * k]? = some lo →
        ∃ b, out[k]? = some b ∧ b.toNat = 16 * (nibble hi).toNat + (nibble lo).toNat

/-- R265, R248: the result of escaping is always an envelope, for both values of HEX_UPPER_OK, and so always needs escaping again. -/
def Obligations.EscapedTextNeedsEscaping : Prop :=
  ∀ (x : List Byte) (maxlen : Nat) (upper asciiOnly : Bool) (c : Byte),
    hexEnvelope upper (escapeBytes x maxlen) = true ∧ needsEscaping upper (escapeBytes x maxlen) c asciiOnly = true

/-- R275: unescaping what was escaped gives the input, cut to the maximum length. -/
def Obligations.UnescapingInvertsEscaping : Prop :=
  ∀ (x : List Byte) (maxlen : Nat), unescapeBytes (escapeBytes x maxlen) = x.take maxlen

/-- R275 at the command level: ESCAPE, move OBUF[0..OLEN) to IBUF with ILEN = OLEN, UNESCAPE with room for the kept bytes: no
NotEnvelope, and OLEN and OBUF[0..OLEN) are the length and the bytes of the first input, cut to MAXLEN. -/
def Obligations.EscapeThenUnescapeCommandsReturnTheInput : Prop :=
  ∀ (s s1 t : State) (m : Nat), m = min s.ilen.toNat s.maxlen.toNat →
    s.fault = false → exec .escape s = .next s1 → s1.fault = false →
    Spec.Ready t → Spec.Fits t m → t.ilen = s1.olen →
    (∀ k, k < t.ilen.toNat → t.ibuf.read k = s1.obuf.read k) →
      ∃ t1, exec .unescape t = .next t1 ∧ t1.fault = false ∧ t1.olen.toNat = m ∧
        ∀ k, k < m → t1.obuf.read k = (inputSeq s)[k]?

/-- R276, P5 of 95_test_vectors.md: a sender that escapes what NEEDESC marks and a receiver that unescapes what HEXCHK marks recover every
field of length at most MAXLEN, an envelope too. -/
def Obligations.TransportRecoversEveryField : Prop :=
  ∀ (x : List Byte) (maxlen : Nat) (upper asciiOnly : Bool) (c : Byte), x.length ≤ maxlen →
    let sent := if needsEscaping upper x c asciiOnly then escapeBytes x maxlen else x
    (if hexEnvelope upper sent then unescapeBytes sent else sent) = x

/-! ### The address map -/

/-- R6, R73, R100: with legal parameters, no bus address of a register's four bytes, of an IBUF byte and of an OBUF byte is that of
another of the three, and a read and a write of one place have the same address. -/
def Obligations.WindowsGiveDifferentFlatAddresses : Prop :=
  ∀ (p : Params) (r : Reg) (k i j : Nat) (v : Word) (b : Byte), p.Valid → k < 4 → i < p.ibufSize → j < p.obufSize →
    ∃ x y z : Nat,
      flatAddress p (.regRead 32 (regOffset r)) = some x ∧ flatAddress p (.regWrite 32 (regOffset r) v) = some x ∧
      flatAddress p (.ibufRead 8 i) = some y ∧ flatAddress p (.ibufWrite 8 i b) = some y ∧
      flatAddress p (.obufRead 8 j) = some z ∧ flatAddress p (.obufWrite 8 j b) = some z ∧
      x = p.regBase + regOffset r ∧ y = p.ibufBase + i ∧ z = p.obufBase + j ∧
      x + k ≠ y ∧ x + k ≠ z ∧ y ≠ z
end

