-- ==== Sys2Proof/Laws/State.lean ====
section
/-!
SUPPORT. Sys2Proof/Laws/State.lean: one lemma per field per update of State, each true by unfolding the update, so that no later
proof unfolds a record update.
-/
namespace Sys2Proof.Machine

/-! ### countReads -/

@[simp] theorem countReads_params (n : Nat) (s : State) : (countReads n s).params = s.params := rfl
@[simp] theorem countReads_fault (n : Nat) (s : State) : (countReads n s).fault = s.fault := rfl
@[simp] theorem countReads_cause (n : Nat) (s : State) : (countReads n s).cause = s.cause := rfl
@[simp] theorem countReads_ilen (n : Nat) (s : State) : (countReads n s).ilen = s.ilen := rfl
@[simp] theorem countReads_ocap (n : Nat) (s : State) : (countReads n s).ocap = s.ocap := rfl
@[simp] theorem countReads_olen (n : Nat) (s : State) : (countReads n s).olen = s.olen := rfl
@[simp] theorem countReads_result (n : Nat) (s : State) : (countReads n s).result = s.result := rfl
@[simp] theorem countReads_sep (n : Nat) (s : State) : (countReads n s).sep = s.sep := rfl
@[simp] theorem countReads_asciiOnly (n : Nat) (s : State) : (countReads n s).asciiOnly = s.asciiOnly := rfl
@[simp] theorem countReads_maxlen (n : Nat) (s : State) : (countReads n s).maxlen = s.maxlen := rfl
@[simp] theorem countReads_arg (n : Nat) (s : State) : (countReads n s).arg = s.arg := rfl
@[simp] theorem countReads_ibuf (n : Nat) (s : State) : (countReads n s).ibuf = s.ibuf := rfl
@[simp] theorem countReads_obuf (n : Nat) (s : State) : (countReads n s).obuf = s.obuf := rfl
@[simp] theorem countReads_pending (n : Nat) (s : State) : (countReads n s).pending = s.pending := rfl
@[simp] theorem countReads_reply (n : Nat) (s : State) : (countReads n s).reply = s.reply := rfl
@[simp] theorem countReads_draws (n : Nat) (s : State) : (countReads n s).draws = s.draws + n := rfl

/-! ### setResult -/

@[simp] theorem setResult_params (b : Byte) (s : State) : (setResult b s).params = s.params := rfl
@[simp] theorem setResult_fault (b : Byte) (s : State) : (setResult b s).fault = s.fault := rfl
@[simp] theorem setResult_cause (b : Byte) (s : State) : (setResult b s).cause = s.cause := rfl
@[simp] theorem setResult_ilen (b : Byte) (s : State) : (setResult b s).ilen = s.ilen := rfl
@[simp] theorem setResult_ocap (b : Byte) (s : State) : (setResult b s).ocap = s.ocap := rfl
@[simp] theorem setResult_olen (b : Byte) (s : State) : (setResult b s).olen = s.olen := rfl
@[simp] theorem setResult_result (b : Byte) (s : State) : (setResult b s).result = b := rfl
@[simp] theorem setResult_sep (b : Byte) (s : State) : (setResult b s).sep = s.sep := rfl
@[simp] theorem setResult_asciiOnly (b : Byte) (s : State) : (setResult b s).asciiOnly = s.asciiOnly := rfl
@[simp] theorem setResult_maxlen (b : Byte) (s : State) : (setResult b s).maxlen = s.maxlen := rfl
@[simp] theorem setResult_arg (b : Byte) (s : State) : (setResult b s).arg = s.arg := rfl
@[simp] theorem setResult_ibuf (b : Byte) (s : State) : (setResult b s).ibuf = s.ibuf := rfl
@[simp] theorem setResult_obuf (b : Byte) (s : State) : (setResult b s).obuf = s.obuf := rfl
@[simp] theorem setResult_pending (b : Byte) (s : State) : (setResult b s).pending = s.pending := rfl
@[simp] theorem setResult_reply (b : Byte) (s : State) : (setResult b s).reply = s.reply := rfl
@[simp] theorem setResult_draws (b : Byte) (s : State) : (setResult b s).draws = s.draws := rfl

/-! ### storeOutput -/

@[simp] theorem storeOutput_params (t : Tail) (out : List Byte) (s : State) : (storeOutput t out s).params = s.params := rfl
@[simp] theorem storeOutput_fault (t : Tail) (out : List Byte) (s : State) : (storeOutput t out s).fault = s.fault := rfl
@[simp] theorem storeOutput_cause (t : Tail) (out : List Byte) (s : State) : (storeOutput t out s).cause = s.cause := rfl
@[simp] theorem storeOutput_ilen (t : Tail) (out : List Byte) (s : State) : (storeOutput t out s).ilen = s.ilen := rfl
@[simp] theorem storeOutput_ocap (t : Tail) (out : List Byte) (s : State) : (storeOutput t out s).ocap = s.ocap := rfl
@[simp] theorem storeOutput_olen (t : Tail) (out : List Byte) (s : State) : (storeOutput t out s).olen = BitVec.ofNat 32 out.length := rfl
@[simp] theorem storeOutput_result (t : Tail) (out : List Byte) (s : State) : (storeOutput t out s).result = s.result := rfl
@[simp] theorem storeOutput_sep (t : Tail) (out : List Byte) (s : State) : (storeOutput t out s).sep = s.sep := rfl
@[simp] theorem storeOutput_asciiOnly (t : Tail) (out : List Byte) (s : State) : (storeOutput t out s).asciiOnly = s.asciiOnly := rfl
@[simp] theorem storeOutput_maxlen (t : Tail) (out : List Byte) (s : State) : (storeOutput t out s).maxlen = s.maxlen := rfl
@[simp] theorem storeOutput_arg (t : Tail) (out : List Byte) (s : State) : (storeOutput t out s).arg = s.arg := rfl
@[simp] theorem storeOutput_ibuf (t : Tail) (out : List Byte) (s : State) : (storeOutput t out s).ibuf = s.ibuf := rfl
@[simp] theorem storeOutput_obuf (t : Tail) (out : List Byte) (s : State) : (storeOutput t out s).obuf = s.obuf.overwrite s.ocap.toNat (out ++ tailBytes t (s.ocap.toNat - out.length)) := rfl
@[simp] theorem storeOutput_pending (t : Tail) (out : List Byte) (s : State) : (storeOutput t out s).pending = s.pending := rfl
@[simp] theorem storeOutput_reply (t : Tail) (out : List Byte) (s : State) : (storeOutput t out s).reply = s.reply := rfl
@[simp] theorem storeOutput_draws (t : Tail) (out : List Byte) (s : State) : (storeOutput t out s).draws = s.draws := rfl

/-! ### takeFault -/

@[simp] theorem takeFault_params (c : Cause) (s : State) : (takeFault c s).params = s.params := rfl
@[simp] theorem takeFault_fault (c : Cause) (s : State) : (takeFault c s).fault = true := rfl
@[simp] theorem takeFault_cause (c : Cause) (s : State) : (takeFault c s).cause = causeCode c := rfl
@[simp] theorem takeFault_ilen (c : Cause) (s : State) : (takeFault c s).ilen = s.ilen := rfl
@[simp] theorem takeFault_ocap (c : Cause) (s : State) : (takeFault c s).ocap = s.ocap := rfl
@[simp] theorem takeFault_olen (c : Cause) (s : State) : (takeFault c s).olen = s.olen := rfl
@[simp] theorem takeFault_result (c : Cause) (s : State) : (takeFault c s).result = s.result := rfl
@[simp] theorem takeFault_sep (c : Cause) (s : State) : (takeFault c s).sep = s.sep := rfl
@[simp] theorem takeFault_asciiOnly (c : Cause) (s : State) : (takeFault c s).asciiOnly = s.asciiOnly := rfl
@[simp] theorem takeFault_maxlen (c : Cause) (s : State) : (takeFault c s).maxlen = s.maxlen := rfl
@[simp] theorem takeFault_arg (c : Cause) (s : State) : (takeFault c s).arg = s.arg := rfl
@[simp] theorem takeFault_ibuf (c : Cause) (s : State) : (takeFault c s).ibuf = s.ibuf := rfl
@[simp] theorem takeFault_obuf (c : Cause) (s : State) : (takeFault c s).obuf = s.obuf := rfl
@[simp] theorem takeFault_pending (c : Cause) (s : State) : (takeFault c s).pending = s.pending := rfl
@[simp] theorem takeFault_reply (c : Cause) (s : State) : (takeFault c s).reply = s.reply := rfl
@[simp] theorem takeFault_draws (c : Cause) (s : State) : (takeFault c s).draws = s.draws := rfl

/-! ### popEvent -/

@[simp] theorem popEvent_params (rest : List HostEvent) (s : State) : (popEvent rest s).params = s.params := rfl
@[simp] theorem popEvent_fault (rest : List HostEvent) (s : State) : (popEvent rest s).fault = s.fault := rfl
@[simp] theorem popEvent_cause (rest : List HostEvent) (s : State) : (popEvent rest s).cause = s.cause := rfl
@[simp] theorem popEvent_ilen (rest : List HostEvent) (s : State) : (popEvent rest s).ilen = s.ilen := rfl
@[simp] theorem popEvent_ocap (rest : List HostEvent) (s : State) : (popEvent rest s).ocap = s.ocap := rfl
@[simp] theorem popEvent_olen (rest : List HostEvent) (s : State) : (popEvent rest s).olen = s.olen := rfl
@[simp] theorem popEvent_result (rest : List HostEvent) (s : State) : (popEvent rest s).result = s.result := rfl
@[simp] theorem popEvent_sep (rest : List HostEvent) (s : State) : (popEvent rest s).sep = s.sep := rfl
@[simp] theorem popEvent_asciiOnly (rest : List HostEvent) (s : State) : (popEvent rest s).asciiOnly = s.asciiOnly := rfl
@[simp] theorem popEvent_maxlen (rest : List HostEvent) (s : State) : (popEvent rest s).maxlen = s.maxlen := rfl
@[simp] theorem popEvent_arg (rest : List HostEvent) (s : State) : (popEvent rest s).arg = s.arg := rfl
@[simp] theorem popEvent_ibuf (rest : List HostEvent) (s : State) : (popEvent rest s).ibuf = s.ibuf := rfl
@[simp] theorem popEvent_obuf (rest : List HostEvent) (s : State) : (popEvent rest s).obuf = s.obuf := rfl
@[simp] theorem popEvent_pending (rest : List HostEvent) (s : State) : (popEvent rest s).pending = rest := rfl
@[simp] theorem popEvent_reply (rest : List HostEvent) (s : State) : (popEvent rest s).reply = none := rfl
@[simp] theorem popEvent_draws (rest : List HostEvent) (s : State) : (popEvent rest s).draws = s.draws := rfl

/-! ### pushEvent -/

@[simp] theorem pushEvent_params (e : HostEvent) (s : State) : (pushEvent e s).params = s.params := rfl
@[simp] theorem pushEvent_fault (e : HostEvent) (s : State) : (pushEvent e s).fault = s.fault := rfl
@[simp] theorem pushEvent_cause (e : HostEvent) (s : State) : (pushEvent e s).cause = s.cause := rfl
@[simp] theorem pushEvent_ilen (e : HostEvent) (s : State) : (pushEvent e s).ilen = s.ilen := rfl
@[simp] theorem pushEvent_ocap (e : HostEvent) (s : State) : (pushEvent e s).ocap = s.ocap := rfl
@[simp] theorem pushEvent_olen (e : HostEvent) (s : State) : (pushEvent e s).olen = s.olen := rfl
@[simp] theorem pushEvent_result (e : HostEvent) (s : State) : (pushEvent e s).result = s.result := rfl
@[simp] theorem pushEvent_sep (e : HostEvent) (s : State) : (pushEvent e s).sep = s.sep := rfl
@[simp] theorem pushEvent_asciiOnly (e : HostEvent) (s : State) : (pushEvent e s).asciiOnly = s.asciiOnly := rfl
@[simp] theorem pushEvent_maxlen (e : HostEvent) (s : State) : (pushEvent e s).maxlen = s.maxlen := rfl
@[simp] theorem pushEvent_arg (e : HostEvent) (s : State) : (pushEvent e s).arg = s.arg := rfl
@[simp] theorem pushEvent_ibuf (e : HostEvent) (s : State) : (pushEvent e s).ibuf = s.ibuf := rfl
@[simp] theorem pushEvent_obuf (e : HostEvent) (s : State) : (pushEvent e s).obuf = s.obuf := rfl
@[simp] theorem pushEvent_pending (e : HostEvent) (s : State) : (pushEvent e s).pending = e :: s.pending := rfl
@[simp] theorem pushEvent_reply (e : HostEvent) (s : State) : (pushEvent e s).reply = s.reply := rfl
@[simp] theorem pushEvent_draws (e : HostEvent) (s : State) : (pushEvent e s).draws = s.draws := rfl

/-! ### platformReset -/

@[simp] theorem platformReset_params (s : State) : (platformReset s).params = s.params := rfl
@[simp] theorem platformReset_fault (s : State) : (platformReset s).fault = false := rfl
@[simp] theorem platformReset_cause (s : State) : (platformReset s).cause = 0 := rfl
@[simp] theorem platformReset_ilen (s : State) : (platformReset s).ilen = 0 := rfl
@[simp] theorem platformReset_ocap (s : State) : (platformReset s).ocap = 0 := rfl
@[simp] theorem platformReset_olen (s : State) : (platformReset s).olen = 0 := rfl
@[simp] theorem platformReset_result (s : State) : (platformReset s).result = 0 := rfl
@[simp] theorem platformReset_sep (s : State) : (platformReset s).sep = 0 := rfl
@[simp] theorem platformReset_asciiOnly (s : State) : (platformReset s).asciiOnly = false := rfl
@[simp] theorem platformReset_maxlen (s : State) : (platformReset s).maxlen = 0 := rfl
@[simp] theorem platformReset_arg (s : State) : (platformReset s).arg = 0 := rfl
@[simp] theorem platformReset_ibuf (s : State) : (platformReset s).ibuf = [] := rfl
@[simp] theorem platformReset_obuf (s : State) : (platformReset s).obuf = [] := rfl
@[simp] theorem platformReset_pending (s : State) : (platformReset s).pending = s.pending := rfl
@[simp] theorem platformReset_reply (s : State) : (platformReset s).reply = none := rfl
@[simp] theorem platformReset_draws (s : State) : (platformReset s).draws = s.draws := rfl

/-! ### State.resetWith -/

@[simp] theorem resetWith_params (p : Params) : (State.resetWith p).params = p := rfl
@[simp] theorem resetWith_fault (p : Params) : (State.resetWith p).fault = false := rfl
@[simp] theorem resetWith_cause (p : Params) : (State.resetWith p).cause = 0 := rfl
@[simp] theorem resetWith_ilen (p : Params) : (State.resetWith p).ilen = 0 := rfl
@[simp] theorem resetWith_ocap (p : Params) : (State.resetWith p).ocap = 0 := rfl
@[simp] theorem resetWith_olen (p : Params) : (State.resetWith p).olen = 0 := rfl
@[simp] theorem resetWith_result (p : Params) : (State.resetWith p).result = 0 := rfl
@[simp] theorem resetWith_sep (p : Params) : (State.resetWith p).sep = 0 := rfl
@[simp] theorem resetWith_asciiOnly (p : Params) : (State.resetWith p).asciiOnly = false := rfl
@[simp] theorem resetWith_maxlen (p : Params) : (State.resetWith p).maxlen = 0 := rfl
@[simp] theorem resetWith_arg (p : Params) : (State.resetWith p).arg = 0 := rfl
@[simp] theorem resetWith_ibuf (p : Params) : (State.resetWith p).ibuf = [] := rfl
@[simp] theorem resetWith_obuf (p : Params) : (State.resetWith p).obuf = [] := rfl
@[simp] theorem resetWith_pending (p : Params) : (State.resetWith p).pending = [] := rfl
@[simp] theorem resetWith_reply (p : Params) : (State.resetWith p).reply = none := rfl
@[simp] theorem resetWith_draws (p : Params) : (State.resetWith p).draws = 0 := rfl

end Sys2Proof.Machine
end

