-- ==== Sys2Proof/Laws/Memory.lean ====
section
/-!
SUPPORT. Sys2Proof/Laws/Memory.lean: what the buffer operations do, and that each keeps the canonical form.
-/
namespace Sys2Proof.Machine

/-! ### What is stored where -/

@[simp] theorem read_nil (a : Nat) : Memory.read [] a = none := rfl

theorem read_cons (k : Nat) (v : Byte) (m : Memory) (a : Nat) :
    Memory.read ((k, v) :: m) a = if k = a then some v else Memory.read m a := rfl

/-- A write stores its byte at its index and changes no other index (R61); this needs no canonical form. -/
theorem read_write (m : Memory) (a : Nat) (b : Byte) (k : Nat) :
    (m.write a b).read k = if k = a then some b else m.read k := by
  induction m with
  | nil => simp only [Memory.write, read_cons, read_nil, eq_comm]
  | cons c m ih =>
    obtain ⟨j, v⟩ := c
    simp only [Memory.write]
    by_cases hk : k = a
    · subst hk
      split <;> [skip; split] <;> simp only [read_cons, ih, if_pos]
      exact if_neg (by omega)
    · rw [if_neg hk]
      split <;> [skip; split] <;> simp only [read_cons, ih, if_neg hk, if_neg (Ne.symm hk)]
      exact (if_neg (by omega)).symm

/-- An index that no cell lists reads as UNSPEC. -/
theorem read_eq_none (m : Memory) (a : Nat) (h : ∀ c ∈ m, c.1 ≠ a) : m.read a = none := by
  induction m with
  | nil => rfl
  | cons c m ih =>
    rw [show c = (c.1, c.2) from rfl, read_cons, if_neg (h c (by simp))]
    exact ih fun d hd => h d (by simp [hd])

theorem read_append (m n : Memory) (a : Nat) : (m ++ n).read a = (m.read a).or (n.read a) := by
  induction m with
  | nil => simp
  | cons c m ih =>
    rw [show c = (c.1, c.2) from rfl, List.cons_append, read_cons, read_cons, ih]
    split <;> simp

theorem read_cellsFrom (base : Nat) (bs : List Byte) (a : Nat) :
    Memory.read (cellsFrom base bs) a = if base ≤ a then bs[a - base]? else none := by
  induction bs generalizing base with
  | nil => simp [cellsFrom]
  | cons b bs ih =>
    rw [cellsFrom, read_cons, ih]
    rcases Nat.lt_trichotomy base a with h | h | h
    · rw [if_neg (by omega), if_pos (by omega), if_pos (by omega),
        show a - base = (a - (base + 1)) + 1 by omega, List.getElem?_cons_succ]
    · subst h; simp
    · rw [if_neg (by omega), if_neg (by omega), if_neg (by omega)]

theorem read_filter_ge (m : Memory) (cap a : Nat) :
    Memory.read (m.filter fun c => cap ≤ c.1) a = if cap ≤ a then m.read a else none := by
  induction m with
  | nil => simp
  | cons c m ih =>
    obtain ⟨k, v⟩ := c
    rw [List.filter_cons]
    simp only [decide_eq_true_eq]
    by_cases ha : cap ≤ a
    · simp only [if_pos ha] at ih ⊢
      split
      · simp only [read_cons, ih]
      · rw [read_cons, if_neg (by omega), ih]
    · simp only [if_neg ha] at ih ⊢
      split
      · rw [read_cons, if_neg (by omega), ih]
      · exact ih

/-- What OBUF holds after a producing command's writes: `bytes` below `cap`, UNSPEC where they end before `cap`, and what it held at
`cap` and beyond. -/
theorem read_overwrite (m : Memory) (cap : Nat) (bytes : List Byte) (a : Nat) :
    (m.overwrite cap bytes).read a = if a < cap then bytes[a]? else m.read a := by
  rw [Memory.overwrite, read_append, read_cellsFrom, read_filter_ge]
  by_cases h : a < cap
  · simp [h, Nat.not_le.mpr h]
  · simp [h, Nat.not_lt.mp h]

/-! ### The canonical form -/

@[simp] theorem wf_nil : Memory.wf [] := List.Pairwise.nil

theorem wf_cons (c : Host.Cell) (m : Memory) : Memory.wf (c :: m) ↔ (∀ d ∈ m, c.1 < d.1) ∧ Memory.wf m := by
  simp [Memory.wf]

theorem mem_write (m : Memory) (a : Nat) (b : Byte) (c : Host.Cell) (h : c ∈ m.write a b) :
    c = (a, b) ∨ c ∈ m := by
  induction m with
  | nil => simpa [Memory.write] using h
  | cons d m ih =>
    obtain ⟨k, v⟩ := d
    simp only [Memory.write] at h
    split at h <;> [skip; split at h] <;> simp only [List.mem_cons] at h ⊢
    · tauto
    · tauto
    · rcases h with h | h
      · tauto
      · rcases ih h with h | h <;> tauto

theorem write_keeps_wf (m : Memory) (a : Nat) (b : Byte) (h : m.wf) : (m.write a b).wf := by
  induction m with
  | nil => exact (wf_cons _ _).mpr ⟨by simp, wf_nil⟩
  | cons c m ih =>
    obtain ⟨k, v⟩ := c
    obtain ⟨hk, hm⟩ := (wf_cons _ _).mp h
    simp only [Memory.write]
    split
    · refine (wf_cons _ _).mpr ⟨fun d hd => ?_, h⟩
      rcases List.mem_cons.mp hd with rfl | hd
      · assumption
      · exact Nat.lt_trans ‹a < k› (hk d hd)
    · split
      · subst k; exact (wf_cons _ _).mpr ⟨hk, hm⟩
      · refine (wf_cons _ _).mpr ⟨fun d hd => ?_, ih hm⟩
        rcases mem_write _ _ _ _ hd with rfl | hd
        · show k < a; omega
        · exact hk d hd

theorem write_keeps_below (m : Memory) (a : Nat) (b : Byte) (size : Nat) (h : m.below size) (ha : a < size) :
    (m.write a b).below size := by
  intro c hc
  rcases mem_write _ _ _ _ hc with rfl | hc
  · exact ha
  · exact h c hc

theorem mem_cellsFrom (base : Nat) (bs : List Byte) (c : Host.Cell) (h : c ∈ cellsFrom base bs) :
    base ≤ c.1 ∧ c.1 < base + bs.length := by
  induction bs generalizing base with
  | nil => simp [cellsFrom] at h
  | cons b bs ih =>
    rcases List.mem_cons.mp h with rfl | h
    · simp
    · have := ih _ h; simp; omega

theorem cellsFrom_wf (base : Nat) (bs : List Byte) : Memory.wf (cellsFrom base bs) := by
  induction bs generalizing base with
  | nil => exact wf_nil
  | cons b bs ih => exact (wf_cons _ _).mpr ⟨fun d hd => (mem_cellsFrom _ _ _ hd).1, ih _⟩

theorem overwrite_keeps_wf (m : Memory) (cap : Nat) (bytes : List Byte) (h : m.wf) : (m.overwrite cap bytes).wf := by
  rw [Memory.overwrite, Memory.wf, List.map_append, List.pairwise_append]
  refine ⟨cellsFrom_wf _ _, h.sublist (List.filter_sublist.map _), ?_⟩
  intro x hx y hy
  obtain ⟨c, hc, rfl⟩ := List.mem_map.mp hx
  obtain ⟨d, hd, rfl⟩ := List.mem_map.mp hy
  have hc := (mem_cellsFrom _ _ _ hc).2
  have hd := of_decide_eq_true (List.mem_filter.mp hd).2
  simp only [List.length_take] at hc
  omega

theorem overwrite_keeps_below (m : Memory) (cap : Nat) (bytes : List Byte) (size : Nat) (h : m.below size)
    (hcap : cap ≤ size) : (m.overwrite cap bytes).below size := by
  intro c hc
  rcases List.mem_append.mp hc with hc | hc
  · have := (mem_cellsFrom _ _ _ hc).2
    simp only [List.length_take] at this
    omega
  · exact h c (List.mem_filter.mp hc).1

/-- Reset memory lists nothing and is canonical. -/
theorem reset_buffers_wf : State.reset.ibuf.wf ∧ State.reset.obuf.wf := by
  exact ⟨wf_nil, wf_nil⟩

end Sys2Proof.Machine
end

