-- ==== Sys2Proof/Laws/Ops.lean ====
section
/-!
SUPPORT. Sys2Proof/Laws/Ops.lean: for each operation that commands share, one lemma that says everything it can do.
-/
namespace Sys2Proof.Machine

@[simp] theorem causeCode_illegalCommand : causeCode .illegalCommand = 1 := rfl
@[simp] theorem causeCode_illegalAlpha : causeCode .illegalAlpha = 2 := rfl
@[simp] theorem causeCode_lengthFault : causeCode .lengthFault = 3 := rfl
@[simp] theorem causeCode_capacityFault : causeCode .capacityFault = 4 := rfl
@[simp] theorem causeCode_notEnvelope : causeCode .notEnvelope = 5 := rfl
@[simp] theorem causeCode_indexRange : causeCode .indexRange = 6 := rfl

theorem unlessFaulted_cases (s : State) (k : State → State) :
    (s.fault = true ∧ unlessFaulted s k = s) ∨ (s.fault = false ∧ unlessFaulted s k = k s) := by
  cases h : s.fault <;> simp [unlessFaulted, h]

theorem checkLength_cases (s : State) (k : State → State) :
    (s.params.ibufSize < s.ilen.toNat ∧ checkLength s k = takeFault .lengthFault s) ∨
    (s.ilen.toNat ≤ s.params.ibufSize ∧ checkLength s k = k s) := by
  unfold checkLength
  split
  · exact .inl ⟨‹_›, rfl⟩
  · exact .inr ⟨by omega, rfl⟩

theorem checkCapacity_cases (req : Nat) (s : State) (k : State → State) :
    ((s.params.obufSize < s.ocap.toNat ∨ s.ocap.toNat < req) ∧
      checkCapacity req s k = takeFault .capacityFault s) ∨
    (s.ocap.toNat ≤ s.params.obufSize ∧ req ≤ s.ocap.toNat ∧ checkCapacity req s k = k s) := by
  unfold checkCapacity
  split
  · exact .inl ⟨‹_›, rfl⟩
  · exact .inr ⟨by omega, by omega, rfl⟩

theorem checkAlpha_cases (size : Nat) (a : Alphabet) (s : State) (k : State → State) :
    (alphabetSize a = size ∧ checkAlpha size a s k = k s) ∨
    (alphabetSize a ≠ size ∧ checkAlpha size a s k = takeFault .illegalAlpha s) := by
  unfold checkAlpha
  split
  · exact .inl ⟨‹_›, rfl⟩
  · exact .inr ⟨‹_›, rfl⟩

@[simp] theorem inputBytes_length (s : State) (n : Nat) : (inputBytes s n).length = n := by
  simp [inputBytes]

/-- A byte of the input that has been written is the byte stored. -/
theorem inputBytes_stored (s : State) (n i : Nat) (b : Byte) (hi : i < n) (hb : s.ibuf.read i = some b) :
    (inputBytes s n)[i]? = some b := by
  simp [inputBytes, readByte, hi, hb]

/-- A shorter read of the input is the beginning of a longer one. -/
theorem inputBytes_take (s : State) (m n : Nat) : (inputBytes s n).take m = inputBytes s (min m n) := by
  simp [inputBytes, ← List.map_take, List.take_range]

/-- A predicate command ignores, faults on an overlong input, or writes RESULT. -/
theorem predicateCommand_cases (p : State → List Byte → Bool) (s : State) :
    (s.fault = true ∧ predicateCommand p s = s) ∨
    (s.fault = false ∧ s.params.ibufSize < s.ilen.toNat ∧ predicateCommand p s = takeFault .lengthFault s) ∨
    (s.fault = false ∧ s.ilen.toNat ≤ s.params.ibufSize ∧
      predicateCommand p s = setResult (predicateResult (p (countReads s.ilen.toNat s) (inputSeq s)))
        (countReads s.ilen.toNat s)) := by
  unfold predicateCommand
  rcases unlessFaulted_cases s _ with ⟨h, e⟩ | ⟨h, e⟩ <;> rw [e]
  · exact .inl ⟨h, rfl⟩
  · rcases checkLength_cases s _ with ⟨hl, e⟩ | ⟨hl, e⟩ <;> rw [e]
    · exact .inr (.inl ⟨h, hl, rfl⟩)
    · exact .inr (.inr ⟨h, hl, rfl⟩)

/-- A producing command of the shared shape faults on its length or capacity check, or writes OBUF and OLEN. -/
theorem producingCommand_cases (req n : Nat) (f : List Byte → List Byte) (s : State) :
    (s.params.ibufSize < s.ilen.toNat ∧ producingCommand req n f s = takeFault .lengthFault s) ∨
    (s.ilen.toNat ≤ s.params.ibufSize ∧ (s.params.obufSize < s.ocap.toNat ∨ s.ocap.toNat < req) ∧
      producingCommand req n f s = takeFault .capacityFault s) ∨
    (s.ilen.toNat ≤ s.params.ibufSize ∧ s.ocap.toNat ≤ s.params.obufSize ∧ req ≤ s.ocap.toNat ∧
      producingCommand req n f s = storeOutput .unspec (f (inputBytes s n)) (countReads n s)) := by
  unfold producingCommand
  rcases checkLength_cases s _ with ⟨hl, e⟩ | ⟨hl, e⟩ <;> rw [e]
  · exact .inl ⟨hl, rfl⟩
  · rcases checkCapacity_cases req s _ with ⟨hc, e⟩ | ⟨hc, hr, e⟩ <;> rw [e]
    · exact .inr (.inl ⟨hl, hc, rfl⟩)
    · exact .inr (.inr ⟨hl, hc, hr, rfl⟩)

/-- What OBUF holds after `storeOutput` of a result that fits. -/
theorem storeOutput_read (t : Tail) (out : List Byte) (s : State) (a : Nat) (hl : out.length ≤ s.ocap.toNat) :
    (storeOutput t out s).obuf.read a =
      if a < out.length then out[a]?
      else if a < s.ocap.toNat then (match t with | .unspec => none | .zeroed => some 0)
      else s.obuf.read a := by
  rw [storeOutput_obuf, read_overwrite]
  by_cases h1 : a < out.length
  · rw [if_pos (by omega), if_pos h1, List.getElem?_append_left h1]
  · rw [if_neg h1, List.getElem?_append_right (by omega)]
    split
    · cases t
      · simp [tailBytes]
      · rw [tailBytes, List.getElem?_replicate, if_pos (by omega)]
    · rfl

end Sys2Proof.Machine
end

