-- ==== Sys2Proof/Laws/Commands.lean ====
section
/-!
SUPPORT. Sys2Proof/Laws/Commands.lean: what UNESCAPE, the one command with a shape of its own, can do, and that no command ends
the machine.
-/
namespace Sys2Proof.Machine

/-- UNESCAPE's outcomes, in the order of its checks. -/
theorem execUnescape_cases (s : State) :
    (s.fault = true ∧ execUnescape s = .next s) ∨
    (s.fault = false ∧ s.params.ibufSize < s.ilen.toNat ∧ execUnescape s = .next (takeFault .lengthFault s)) ∨
    (s.fault = false ∧ s.ilen.toNat ≤ s.params.ibufSize ∧ hexEnvelope s.params.hexUpperOk (inputSeq s) = false ∧
      execUnescape s = .next (takeFault .notEnvelope (countReads s.ilen.toNat s))) ∨
    (s.fault = false ∧ s.ilen.toNat ≤ s.params.ibufSize ∧ hexEnvelope s.params.hexUpperOk (inputSeq s) = true ∧
      (s.params.obufSize < s.ocap.toNat ∨ s.ocap.toNat < (s.ilen.toNat - 6) / 2) ∧
      execUnescape s = .next (takeFault .capacityFault (countReads s.ilen.toNat s))) ∨
    (s.fault = false ∧ s.ilen.toNat ≤ s.params.ibufSize ∧ hexEnvelope s.params.hexUpperOk (inputSeq s) = true ∧
      s.ocap.toNat ≤ s.params.obufSize ∧ (s.ilen.toNat - 6) / 2 ≤ s.ocap.toNat ∧
      execUnescape s = .next (storeOutput .zeroed (unescapeBytes (inputSeq s)) (countReads s.ilen.toNat s))) := by
  unfold execUnescape
  rcases unlessFaulted_cases s _ with ⟨hf, e⟩ | ⟨hf, e⟩ <;> rw [e]
  · exact .inl ⟨hf, rfl⟩
  rcases checkLength_cases s _ with ⟨hl, e⟩ | ⟨hl, e⟩ <;> rw [e]
  · exact .inr (.inl ⟨hf, hl, rfl⟩)
  cases he : hexEnvelope s.params.hexUpperOk (inputSeq s)
  · refine .inr (.inr (.inl ⟨hf, hl, rfl, congrArg _ ?_⟩))
    exact if_neg (by rw [← Bool.not_eq_true] at he; exact he)
  have open_if : (withInput s.ilen.toNat s fun inp s =>
      if hexEnvelope s.params.hexUpperOk inp then
        checkCapacity ((s.ilen.toNat - 6) / 2) s fun s => storeOutput .zeroed (unescapeBytes inp) s
      else takeFault .notEnvelope s) =
      checkCapacity ((s.ilen.toNat - 6) / 2) (countReads s.ilen.toNat s)
        fun t => storeOutput .zeroed (unescapeBytes (inputSeq s)) t := if_pos he
  rw [open_if]
  rcases checkCapacity_cases ((s.ilen.toNat - 6) / 2) (countReads s.ilen.toNat s)
    (fun t => storeOutput .zeroed (unescapeBytes (inputSeq s)) t) with ⟨hc, e⟩ | ⟨hc, hr, e⟩ <;> rw [e]
  · exact .inr (.inr (.inr (.inl ⟨hf, hl, rfl, hc, rfl⟩)))
  · exact .inr (.inr (.inr (.inr ⟨hf, hl, rfl, hc, hr, rfl⟩)))

/-- Every command ends in a next state: the engine's faults are next states too. -/
theorem exec_answers_next (i : Instr) (s : State) : ∃ t, exec i s = .next t := by
  cases i <;> exact ⟨_, rfl⟩

end Sys2Proof.Machine
end

