-- ==== Sys2Proof/Laws/Config.lean ====
section
/-!
SUPPORT. Sys2Proof/Laws/Config.lean: a layout by order and gaps never overlaps, every layout without overlap is one, and the
machine at hand meets R6.
-/
namespace Sys2Proof

/-- The parameters with the bases that an order and gaps give. -/
def Params.withBases (p : Params) (bases : Nat × Nat × Nat) : Params :=
  { p with regBase := bases.1, ibufBase := bases.2.1, obufBase := bases.2.2 }

theorem windowBases_disjoint (p : Params) (order : WindowOrder) (gap0 gap1 gap2 : Nat) :
    (p.withBases (windowBases order gap0 gap1 gap2 p.ibufSize p.obufSize)).WindowsDisjoint := by
  cases order <;> simp only [Params.WindowsDisjoint, Params.withBases, windowBases, windowStarts] <;> omega

/-- No layout that R6 admits is left out. -/
theorem windowBases_covers (p : Params) (hs : p.SizesLegal) (hd : p.WindowsDisjoint) :
    ∃ order gap0 gap1 gap2,
      windowBases order gap0 gap1 gap2 p.ibufSize p.obufSize = (p.regBase, p.ibufBase, p.obufBase) := by
  obtain ⟨hri, hro, hio⟩ := hd
  have hw : regWindowSize = 0x30 := rfl
  rcases hri with ri | ir <;> rcases hro with ro | or <;> rcases hio with io | oi
  · exact ⟨.regIbufObuf, p.regBase, p.ibufBase - (p.regBase + regWindowSize), p.obufBase - (p.ibufBase + p.ibufSize), by
      refine Prod.ext ?_ (Prod.ext ?_ ?_) <;> simp only [windowBases, windowStarts] <;> omega⟩
  · exact ⟨.regObufIbuf, p.regBase, p.obufBase - (p.regBase + regWindowSize), p.ibufBase - (p.obufBase + p.obufSize), by
      refine Prod.ext ?_ (Prod.ext ?_ ?_) <;> simp only [windowBases, windowStarts] <;> omega⟩
  · omega
  · exact ⟨.obufRegIbuf, p.obufBase, p.regBase - (p.obufBase + p.obufSize), p.ibufBase - (p.regBase + regWindowSize), by
      refine Prod.ext ?_ (Prod.ext ?_ ?_) <;> simp only [windowBases, windowStarts] <;> omega⟩
  · exact ⟨.ibufRegObuf, p.ibufBase, p.regBase - (p.ibufBase + p.ibufSize), p.obufBase - (p.regBase + regWindowSize), by
      refine Prod.ext ?_ (Prod.ext ?_ ?_) <;> simp only [windowBases, windowStarts] <;> omega⟩
  · omega
  · exact ⟨.ibufObufReg, p.ibufBase, p.obufBase - (p.ibufBase + p.ibufSize), p.regBase - (p.obufBase + p.obufSize), by
      refine Prod.ext ?_ (Prod.ext ?_ ?_) <;> simp only [windowBases, windowStarts] <;> omega⟩
  · exact ⟨.obufIbufReg, p.obufBase, p.ibufBase - (p.obufBase + p.obufSize), p.regBase - (p.ibufBase + p.ibufSize), by
      refine Prod.ext ?_ (Prod.ext ?_ ?_) <;> simp only [windowBases, windowStarts] <;> omega⟩

theorem Config.params_valid : Config.params.Valid := by
  have hi := Config.ibufExtra.isLt
  have ho := Config.obufExtra.isLt
  refine ⟨?_, windowBases_disjoint Config.params Config.windowOrder Config.gap0 Config.gap1 Config.gap2⟩
  simp only [Params.SizesLegal, Config.params, Config.ibufSize, Config.obufSize]
  omega

end Sys2Proof
end

