-- ==== Sys2Proof/Laws/Encoding.lean ====
section
/-!
SUPPORT. Sys2Proof/Laws/Encoding.lean: the fields of an encoded command.
-/
namespace Sys2Proof

@[simp] theorem encode_zeroField (i : Instr) : zeroField (encode i) = 0 := by
  rcases i with a | a | a | a | a | a | _ | _ | _ | _ | _ | _ | _ <;> (try cases a) <;> rfl

@[simp] theorem encode_opField (i : Instr) : opField (encode i) = opCode i := by
  rcases i with a | a | a | a | a | a | _ | _ | _ | _ | _ | _ | _ <;> (try cases a) <;> rfl

@[simp] theorem encode_alphaField (i : Instr) : alphaField (encode i) = alphaOperand i := by
  rcases i with a | a | a | a | a | a | _ | _ | _ | _ | _ | _ | _ <;> (try cases a) <;> rfl

@[simp] theorem alphabetOfCode_alphaCode (a : Alphabet) : alphabetOfCode (alphaCode a) = some a := by
  cases a <;> rfl

end Sys2Proof
end

