-- ==== Sys2Proof/Laws/PerInstr.lean ====
section
/-!
SUPPORT. Sys2Proof/Laws/PerInstr.lean: a statement about every command's word, one lemma per constructor.
-/
namespace Sys2Proof.Laws.TableRow

/-- The match value of a command's row in spec/opcode_table.json. -/
def rowMatch : Instr → Word
  | .tosym _ => 0x00000001
  | .fromsym _ => 0x00000002
  | .b64enc _ => 0x00000010
  | .b64dec _ => 0x00000011
  | .b32enc _ => 0x00000012
  | .b32dec _ => 0x00000013
  | .utf8chk => 0x00000020
  | .asciichk => 0x00000030
  | .sepchk => 0x00000031
  | .hexchk => 0x00000032
  | .needesc => 0x00000033
  | .escape => 0x00000040
  | .unescape => 0x00000041

/-- The mask of a command's row in spec/opcode_table.json. -/
def rowMask : Instr → Word
  | .tosym _ | .fromsym _ | .b64enc _ | .b64dec _ | .b32enc _ | .b32dec _ => 0xFFFFF0FF
  | .utf8chk | .asciichk | .sepchk | .hexchk | .needesc | .escape | .unescape => 0xFFFFFFFF

/-- The encoding of a command matches its row of the opcode table (R92). -/
def Statement (i : Instr) : Prop := encode i &&& rowMask i = rowMatch i

theorem tosym (a : Alphabet) : Statement (.tosym a) := by cases a <;> rfl
theorem fromsym (a : Alphabet) : Statement (.fromsym a) := by cases a <;> rfl
theorem b64enc (a : Alphabet) : Statement (.b64enc a) := by cases a <;> rfl
theorem b64dec (a : Alphabet) : Statement (.b64dec a) := by cases a <;> rfl
theorem b32enc (a : Alphabet) : Statement (.b32enc a) := by cases a <;> rfl
theorem b32dec (a : Alphabet) : Statement (.b32dec a) := by cases a <;> rfl
theorem utf8chk : Statement .utf8chk := rfl
theorem asciichk : Statement .asciichk := rfl
theorem sepchk : Statement .sepchk := rfl
theorem hexchk : Statement .hexchk := rfl
theorem needesc : Statement .needesc := rfl
theorem escape : Statement .escape := rfl
theorem unescape : Statement .unescape := rfl

end Sys2Proof.Laws.TableRow
end

