-- ==== Sys2Proof/Tests/Slice0.lean ====
section
/-!
SUPPORT. Sys2Proof/Tests/Slice0.lean: tests on fixed values, and for each obligation with hypotheses a witness that meets them
together. Expected results come from spec/95_test_vectors.md and from the encoding tables of spec/30_encoding.md.
-/
namespace Sys2Proof.Tests

open Sys2Proof.Machine

/-! ### Small states -/

/-- The machine of 95_test_vectors.md: 64-byte buffers, HEX_UPPER_OK = 1. -/
def machine : State := State.resetWith ⟨64, 64, true, 0x0, 0x1000, 0x2000⟩

/-- The same machine with HEX_UPPER_OK = 0. -/
def strictMachine : State := State.resetWith ⟨64, 64, false, 0x0, 0x1000, 0x2000⟩

/-- A machine whose buffers are as small as a test needs them, to put ILEN and OCAP at their bounds. -/
def smallMachine (ibufSize obufSize : Nat) : State := State.resetWith ⟨ibufSize, obufSize, true, 0x0, 0x1000, 0x2000⟩

/-- The state after the host has loaded `inp` and set OCAP. -/
def loaded (inp : List Byte) (cap : Nat) (s : State) : State :=
  { s with ibuf := cellsFrom 0 inp, ilen := BitVec.ofNat 32 inp.length, ocap := BitVec.ofNat 32 cap }

/-- The state a command leaves; every command ends in a next state. -/
def ran (i : Instr) (s : State) : State :=
  match exec i s with
  | .next t => t
  | .fault _ => s
  | .refused _ => s

/-- The state a step leaves. -/
def stepped (s : State) : State :=
  match step s with
  | .next t => t
  | .fault _ => s
  | .refused _ => s

/-- OBUF[0..n). -/
def output (n : Nat) (s : State) : List (Option Byte) := (List.range n).map fun p => s.obuf.read p

/-- A state with one event pending. -/
def asked (e : HostEvent) (s : State) : State := { s with pending := [e] }

/-- The state of an engine that has recorded IllegalCommand. -/
def faulted : State := { machine with fault := true, cause := 1 }

def hello : List Byte := [0x68, 0x65, 0x6C, 0x6C, 0x6F]
/-- `QQ==`. -/
def qq : List Byte := [0x51, 0x51, 0x3D, 0x3D]
/-- `ab:cd`. -/
def abcd : List Byte := [0x61, 0x62, 0x3A, 0x63, 0x64]
/-- The envelope of the byte 41. -/
def env41 : List Byte := [0x24, 0x48, 0x45, 0x58, 0x5B, 0x34, 0x31, 0x5D]
/-- The envelope of the byte 4A with an upper-case digit. -/
def envUpper : List Byte := [0x24, 0x48, 0x45, 0x58, 0x5B, 0x34, 0x41, 0x5D]
/-- The envelope of nothing. -/
def env0 : List Byte := [0x24, 0x48, 0x45, 0x58, 0x5B, 0x5D]
/-- S9: six bytes that end in `4`. -/
def notEnv : List Byte := [0x24, 0x48, 0x45, 0x58, 0x5B, 0x34]

/-! ### WellFormed: each check refuses an ill-formed term (R95) -/

theorem test_wellFormed_b64enc : (Instr.b64enc .base32).wellFormed = false := by decide
theorem test_wellFormed_b64dec : (Instr.b64dec .base32).wellFormed = false := by decide
theorem test_wellFormed_b32enc : (Instr.b32enc .base64).wellFormed = false := by decide
theorem test_wellFormed_b32dec : (Instr.b32dec .lotus64).wellFormed = false := by decide
theorem test_wellFormed_symbols :
    ∀ a : Alphabet, a = .base32 ∨ a = .base64 → (Instr.tosym a).wellFormed = true ∧ (Instr.fromsym a).wellFormed = true := by
  intro a _; cases a <;> decide

/-! ### Decode: words written as ZERO, ALPHA, OP (R90, R92, R93) -/

/-- A word from its fields, most significant first. -/
def word (zero : BitVec 20) (alpha : BitVec 4) (op : BitVec 8) : Word := zero ++ (alpha ++ op : BitVec 12)

theorem test_decode_tosym : decode (word 0b00000000000000000000 0b0010 0b00000001) = .command (.tosym .base32) := by decide
theorem test_decode_fromsym : decode (word 0b00000000000000000000 0b0100 0b00000010) = .command (.fromsym .bcrypt64) := by decide
theorem test_decode_b64enc : decode (word 0b00000000000000000000 0b0001 0b00010000) = .command (.b64enc .base64url) := by decide
theorem test_decode_b64dec : decode (word 0b00000000000000000000 0b0011 0b00010001) = .command (.b64dec .itoa64) := by decide
theorem test_decode_b32enc : decode (word 0b00000000000000000000 0b0010 0b00010010) = .command (.b32enc .base32) := by decide
theorem test_decode_b32dec : decode (word 0b00000000000000000000 0b0010 0b00010011) = .command (.b32dec .base32) := by decide
theorem test_decode_utf8chk : decode (word 0b00000000000000000000 0b0000 0b00100000) = .command .utf8chk := by decide
theorem test_decode_asciichk : decode (word 0b00000000000000000000 0b0000 0b00110000) = .command .asciichk := by decide
theorem test_decode_sepchk : decode (word 0b00000000000000000000 0b0000 0b00110001) = .command .sepchk := by decide
theorem test_decode_hexchk : decode (word 0b00000000000000000000 0b0000 0b00110010) = .command .hexchk := by decide
theorem test_decode_needesc : decode (word 0b00000000000000000000 0b0000 0b00110011) = .command .needesc := by decide
theorem test_decode_escape : decode (word 0b00000000000000000000 0b0000 0b01000000) = .command .escape := by decide
theorem test_decode_unescape : decode (word 0b00000000000000000000 0b0000 0b01000001) = .command .unescape := by decide
/-- F4: a bit of ZERO. -/
theorem test_decode_zero_field : decode (word 0b00000000000000000001 0b0000 0b00100000) = .illegalCommand := by decide
/-- F3: ALPHA on a command that uses none. -/
theorem test_decode_alpha_unused : decode (word 0b00000000000000000000 0b0001 0b00100000) = .illegalCommand := by decide
/-- F6: a reserved alphabet. -/
theorem test_decode_alpha_reserved : decode (word 0b00000000000000000000 0b0110 0b00010000) = .illegalAlpha := by decide
/-- The first instruction after reset: the word is served by the next step. -/
theorem test_fetch_word : (State.reset.withFetchWord 32 0x212).pending = [.regWrite 32 0 0x212] := by decide

/-! ### One step of each command (95_test_vectors.md part 2) -/

theorem test_tosym_itoa64 : (ran (.tosym .itoa64) { machine with arg := 12 }).result = 0x41 := by decide
theorem test_tosym_base32_last : (ran (.tosym .base32) { machine with arg := 31 }).result = 0x37 := by decide
theorem test_fromsym_z : (ran (.fromsym .itoa64) { machine with arg := 0x7A }).result = 63 := by decide
theorem test_fromsym_pad : (ran (.fromsym .base64) { machine with arg := 0x3D, result := 9 }).result = 0 := by decide
/-- S12: `QUI=`. -/
theorem test_b64enc_one_pad : output 5 (ran (.b64enc .base64) (loaded [0x41, 0x42] 5 machine)) =
    [some 0x51, some 0x55, some 0x49, some 0x3D, none] := by decide
/-- `EI71F.==`. -/
theorem test_b64enc_itoa64 : output 8 (ran (.b64enc .itoa64) (loaded [0x41, 0x42, 0x43, 0x44] 8 machine)) =
    [some 0x45, some 0x49, some 0x37, some 0x31, some 0x46, some 0x2E, some 0x3D, some 0x3D] := by decide
/-- `Q*JD`: a byte that is no symbol decodes as index 0. -/
theorem test_b64dec_not_a_symbol : output 4 (ran (.b64dec .base64) (loaded [0x51, 0x2A, 0x4A, 0x44] 4 machine)) =
    [some 0x40, some 0x02, some 0x43, none] := by decide
/-- `QQ==QUJD`: the first pad cuts. -/
theorem test_b64dec_first_pad :
    (ran (.b64dec .base64) (loaded (qq ++ [0x51, 0x55, 0x4A, 0x44]) 8 machine)).olen = 1 := by decide
/-- `IFBEGRA=`. -/
theorem test_b32enc_one_pad : output 8 (ran (.b32enc .base32) (loaded [0x41, 0x42, 0x43, 0x44] 8 machine)) =
    [some 0x49, some 0x46, some 0x42, some 0x45, some 0x47, some 0x52, some 0x41, some 0x3D] := by decide
/-- `NBSWY3DP`. -/
theorem test_b32enc_hello : output 8 (ran (.b32enc .base32) (loaded hello 8 machine)) =
    [some 0x4E, some 0x42, some 0x53, some 0x57, some 0x59, some 0x33, some 0x44, some 0x50] := by decide
/-- `IFB`: 15 bits give one byte. -/
theorem test_b32dec_short : output 2 (ran (.b32dec .base32) (loaded [0x49, 0x46, 0x42] 3 machine)) =
    [some 0x41, none] := by decide
/-- `NBSWY3DP`. -/
theorem test_b32dec_hello :
    output 5 (ran (.b32dec .base32) (loaded [0x4E, 0x42, 0x53, 0x57, 0x59, 0x33, 0x44, 0x50] 8 machine)) =
    hello.map some := by decide
/-- S2. -/
theorem test_utf8chk_euro : (ran .utf8chk (loaded [0xE2, 0x82, 0xAC] 0 machine)).result = 1 := by decide
/-- The cut by ILEN: IBUF[2] is not read. -/
theorem test_utf8chk_cut : (ran .utf8chk { loaded [0xE2, 0x82, 0xAC] 0 machine with ilen := 2, result := 1 }).result = 0 := by
  decide
theorem test_asciichk_delete : (ran .asciichk (loaded [0x7F] 0 { machine with result := 1 })).result = 0 := by decide
theorem test_asciichk_bounds : (ran .asciichk (loaded [0x20, 0x7E] 0 machine)).result = 1 := by decide
theorem test_sepchk_zero : (ran .sepchk (loaded [0x61, 0x00, 0x62] 0 machine)).result = 1 := by decide
theorem test_sepchk_empty : (ran .sepchk (loaded [] 0 { machine with sep := 0x3A, result := 1 })).result = 0 := by decide
/-- S9. -/
theorem test_hexchk_last_byte : (ran .hexchk (loaded notEnv 0 { machine with result := 1 })).result = 0 := by decide
/-- Upper-case digits where HEX_UPPER_OK is 0. -/
theorem test_hexchk_strict : (ran .hexchk (loaded envUpper 0 { strictMachine with result := 1 })).result = 0 := by decide
/-- S10. -/
theorem test_needesc_separator :
    (ran .needesc (loaded abcd 0 { machine with sep := 0x3A, asciiOnly := true })).result = 1 := by decide
theorem test_needesc_utf8_mode :
    (ran .needesc (loaded [0xE2, 0x82, 0xAC] 0 { machine with sep := 0x3A, result := 1 })).result = 0 := by decide
/-- The ESCAPE tail row: OCAP = 10, UNSPEC up to it and unchanged from it on. -/
theorem test_escape_tail :
    output 11 (ran .escape (loaded [0x41] 10 { machine with maxlen := 256, obuf := cellsFrom 0 (List.replicate 11 0xAA) })) =
    env41.map some ++ [none, none, some 0xAA] := by decide
/-- `hello` with MAXLEN = 1. -/
theorem test_escape_truncates : output 8 (ran .escape (loaded hello 8 { machine with maxlen := 1 })) =
    [some 0x24, some 0x48, some 0x45, some 0x58, some 0x5B, some 0x36, some 0x38, some 0x5D] := by decide
/-- The UNESCAPE tail row: OCAP = 4. -/
theorem test_unescape_tail :
    output 5 (ran .unescape (loaded env41 4 { machine with obuf := cellsFrom 0 (List.replicate 5 0xAA) })) =
    [some 0x41, some 0x00, some 0x00, some 0x00, some 0xAA] := by decide
theorem test_unescape_upper : output 1 (ran .unescape (loaded envUpper 1 machine)) = [some 0x4A] := by decide

/-! ### The tables and the finite-state form -/

/-- Rows of 2.6: the lowest and the highest sequence of each class. -/
theorem test_utf8_accepted : [[], [0x7F], [0xC2, 0x80], [0xDF, 0xBF], [0xE0, 0xA0, 0x80], [0xE1, 0x80, 0x80], [0xED, 0x9F, 0xBF],
    [0xEF, 0xBF, 0xBF], [0xF0, 0x90, 0x80, 0x80], [0xF3, 0xBF, 0xBF, 0xBF], [0xF4, 0x8F, 0xBF, 0xBF],
    [0x63, 0x61, 0x66, 0xC3, 0xA9]].all wellFormedUtf8 = true := by decide
/-- Rows of 2.6: just outside each class, and truncated. -/
theorem test_utf8_rejected : [[0x80], [0xC1, 0xBF], [0xC2, 0x7F], [0xC2, 0xC0], [0xE0, 0x9F, 0xBF], [0xED, 0xA0, 0x80],
    [0xF0, 0x8F, 0xBF, 0xBF], [0xF4, 0x90, 0x80, 0x80], [0xF5, 0x80, 0x80, 0x80], [0xF0, 0x9F, 0x98],
    [0xC2, 0xE2, 0x82, 0xAC], [0xF0, 0x9F, 0x98, 0xC0]].any wellFormedUtf8 = false := by decide
/-- The trace of F0 9F 98 in 2.6. -/
theorem test_fsm_trace : [0xF0, 0x9F, 0x98].foldl scanNext .start = .cont1 := by decide

/-! ### Faults and registers -/

/-- F10b's word on an overlong input: IllegalAlpha comes before LengthFault. -/
theorem test_alpha_before_length :
    (stepped (asked (.regWrite 32 0 0x610) { machine with ilen := 65 })).cause = 2 := by decide
/-- F13: the decode capacity is ILEN. -/
theorem test_decode_capacity : (ran (.b64dec .base64) (loaded qq 3 machine)).cause = 4 := by decide
/-- F15b: NotEnvelope comes before CapacityFault. -/
theorem test_envelope_before_capacity : (ran .unescape (loaded notEnv 0 machine)).cause = 5 := by decide
/-- F17: a faulted engine keeps its first cause. -/
theorem test_first_cause_stays : (stepped (asked (.regWrite 32 0 0x610) faulted)).cause = 1 := by decide
/-- `rd STATUS` after F1 returns 0x11. -/
theorem test_read_status : (stepped (asked (.regRead 32 0x04) faulted)).reply = some (.word 0x11) := by decide
/-- A write of 0x12345 to SEP stores 0x45. -/
theorem test_write_sep : (stepped (asked (.regWrite 32 0x18 0x12345) machine)).sep = 0x45 := by decide
/-- `wr IBUFSZ, 1` is ignored. -/
theorem test_write_ibufsz : readReg .ibufsz (stepped (asked (.regWrite 32 0x28 1) machine)) = 64 := by decide
/-- R102: the transactions of its example. -/
theorem test_script_example :
    scriptLoad [0x41] ++ scriptCap 4 ++ [scriptCommand (.b64enc .base64), scriptRd .olen] =
    [.ibufWrite 8 0 0x41, .regWrite 32 0x08 1, .regWrite 32 0x0C 4, .regWrite 32 0x00 0x10, .regRead 32 0x10] := by decide
/-- P1 lines 4 and 5 as transactions, with a shorter text. -/
theorem test_script : scriptLoad [0x61, 0x62] ++ [scriptCommand .needesc] =
    [.ibufWrite 8 0 0x61, .ibufWrite 8 1 0x62, .regWrite 32 0x08 2, .regWrite 32 0x00 0x33] := by decide

/-! ### Witnesses: for each obligation, states and operands that meet its hypotheses -/

theorem witness_StepServesTheOldestEvent :
    (asked .platformReset machine).pending = .platformReset :: [] ∧ machine.pending = [] := by decide

theorem witness_StepRunsDecodedCommand :
    machine.fault = false ∧ (asked (.regWrite 32 0x00 0x20) machine).fault = false ∧
    (asked (.regWrite 32 0x00 0x20) machine).pending = .regWrite 32 0x00 0x20 :: [] ∧
    decode 0x20 = .command .utf8chk ∧ decodeTableWord 32 (0x20 : Word).toNat = some .utf8chk := by decide

theorem witness_FaultedEngineIgnoresCommands :
    faulted.fault = true ∧ (asked (.regWrite 32 0x00 0x10) faulted).fault = true ∧
    (asked (.regWrite 32 0x00 0x10) faulted).pending = .regWrite 32 0x00 0x10 :: [] := by decide

theorem witness_IllegalWordRaisesIllegalCommand :
    (asked (.regWrite 32 0x00 0x1020) machine).fault = false ∧
    (asked (.regWrite 32 0x00 0x1020) machine).pending = .regWrite 32 0x00 0x1020 :: [] ∧
    decode 0x1020 = .illegalCommand ∧ decode 0x42 = .illegalCommand ∧ decode 0x120 = .illegalCommand := by decide

theorem witness_IllegalAlphabetRaisesIllegalAlpha :
    (asked (.regWrite 32 0x00 0x601) machine).fault = false ∧
    (asked (.regWrite 32 0x00 0x601) machine).pending = .regWrite 32 0x00 0x601 :: [] ∧
    decode 0x601 = .illegalAlpha ∧ decode 0x210 = .illegalAlpha ∧ decode 0x312 = .illegalAlpha := by decide

theorem witness_RegisterReadReturnsStoredFields :
    machine.params.SizesLegal ∧ (asked (.regRead 32 0x00) machine).pending = .regRead 32 0x00 :: [] ∧
    (asked (.regRead 32 0x2C) machine).pending = .regRead 32 0x2C :: [] := by decide

/-- One for each register, written with all ones. -/
theorem witness_RegisterWriteStoresDefinedBits :
    ∀ off ∈ [0x08, 0x0C, 0x20, 0x18, 0x1C, 0x24, 0x04, 0x10, 0x14, 0x28, 0x2C],
      (asked (.regWrite 32 off 0xFFFFFFFF) machine).pending = .regWrite 32 off 0xFFFFFFFF :: [] := by decide

theorem witness_SizeRegistersReadTheParameters :
    machine.params.SizesLegal ∧ (asked (.regWrite 32 0x2C 1) machine).pending = .regWrite 32 0x2C 1 :: [] := by decide

theorem witness_SizeRegistersReadTheParameters_step :
    step (asked (.regWrite 32 0x28 1) machine) = .next machine := rfl

/-- A width, an offset past the table, an offset between two registers, and the last register. -/
theorem witness_StrayRegisterAccessIsRefused :
    (asked (.regRead 16 0x08) machine).pending = .regRead 16 0x08 :: [] ∧ (16 ≠ 32 ∨ 0x30 ≤ 0x08 ∨ 0x08 % 4 ≠ 0) ∧
    (asked (.regRead 32 0x30) machine).pending = .regRead 32 0x30 :: [] ∧ (32 ≠ 32 ∨ 0x30 ≤ 0x30 ∨ 0x30 % 4 ≠ 0) ∧
    (asked (.regWrite 32 0x2E 0) machine).pending = .regWrite 32 0x2E 0 :: [] ∧ (32 ≠ 32 ∨ 0x30 ≤ 0x2E ∨ 0x2E % 4 ≠ 0) ∧
    (asked (.regWrite 32 0x2C 0) machine).pending = .regWrite 32 0x2C 0 :: [] ∧ (0x2C < 0x30 ∧ 0x2C % 4 = 0) := by decide

/-- `iw 64, 0` and `or 64` of 2.11, and accesses of another width at a legal index. -/
theorem witness_StrayBufferAccessIsRefused :
    (8 ≠ 8 ∨ machine.params.ibufSize ≤ 64) ∧ (8 ≠ 8 ∨ machine.params.obufSize ≤ 64) ∧
    (16 ≠ 8 ∨ machine.params.ibufSize ≤ 0) ∧ (16 ≠ 8 ∨ machine.params.obufSize ≤ 0) ∧
    (asked (.ibufWrite 8 64 0) machine).pending = .ibufWrite 8 64 0 :: [] ∧
    (asked (.ibufRead 16 0) machine).pending = .ibufRead 16 0 :: [] ∧
    (asked (.obufWrite 16 0 0) machine).pending = .obufWrite 16 0 0 :: [] ∧
    (asked (.obufRead 8 64) machine).pending = .obufRead 8 64 :: [] := by decide

/-- The last index of each buffer, written, and read after it has been written. -/
theorem witness_BufferTransactionsMoveOneByte :
    63 < machine.params.ibufSize ∧ 63 < machine.params.obufSize ∧
    (asked (.ibufWrite 8 63 0xAA) machine).pending = .ibufWrite 8 63 0xAA :: [] ∧
    (asked (.obufWrite 8 63 0xAA) machine).pending = .obufWrite 8 63 0xAA :: [] ∧
    (asked (.ibufRead 8 63) { machine with ibuf := [(63, 0xAA)] }).ibuf.read 63 = some 0xAA ∧
    (asked (.ibufRead 8 63) { machine with ibuf := [(63, 0xAA)] }).pending = .ibufRead 8 63 :: [] ∧
    (asked (.obufRead 8 63) { machine with obuf := [(63, 0xAA)] }).obuf.read 63 = some 0xAA ∧
    (asked (.obufRead 8 63) { machine with obuf := [(63, 0xAA)] }).pending = .obufRead 8 63 :: [] := by decide

/-- `ir 0` and `or 0` right after reset (2.11). -/
theorem witness_UnwrittenByteReadsAFreeValue :
    0 < machine.params.ibufSize ∧ machine.ibuf.read 0 = none ∧ (asked (.ibufRead 8 0) machine).pending = .ibufRead 8 0 :: [] ∧
    0 < machine.params.obufSize ∧ machine.obuf.read 0 = none ∧
    (asked (.obufRead 8 0) machine).pending = .obufRead 8 0 :: [] := by decide

theorem witness_ResetStateHasTheTableValues : Reg.status ≠ .ibufsz ∧ Reg.status ≠ .obufsz := by decide

theorem witness_PlatformResetRestoresTheResetState :
    (asked .platformReset faulted).pending = .platformReset :: [] ∧ Reg.status ≠ .ibufsz ∧ Reg.status ≠ .obufsz := by decide

theorem witness_OnlyResetClearsTheFault :
    faulted.fault = true ∧ (asked (.regWrite 32 0x04 0) faulted).fault = true ∧ (asked .platformReset faulted).fault = true := by
  decide

/-- A step that leaves the fault, and one that clears it. -/
theorem witness_OnlyResetClearsTheFault_steps :
    step (asked (.regWrite 32 0x04 0) faulted) = .next faulted ∧ step (asked .platformReset faulted) = .next machine :=
  ⟨rfl, rfl⟩

theorem witness_EveryStepKeepsTheInvariant : (asked (.regWrite 32 0x00 0x212) (loaded hello 8 machine)).Inv := by decide

theorem witness_EveryStepKeepsTheInvariant_step :
    step (asked (.regWrite 32 0x00 0x20) (loaded hello 8 machine)) =
      .next { loaded hello 8 machine with result := 1, draws := 5 } := rfl

/-- A faulted engine, a command that faults, one that writes RESULT, one that produces. -/
theorem witness_CommandWriteSets :
    faulted.fault = true ∧
    (loaded qq 3 machine).fault = false ∧ (ran (.b64dec .base64) (loaded qq 3 machine)).fault = true ∧
    (ran .sepchk (loaded hello 0 machine)).fault = false ∧
    (ran (.b64dec .base64) (loaded qq 4 machine)).fault = false := by decide

theorem witness_CommandWriteSets_producing : ¬Spec.WritesResult (.b64dec .base64) := fun h => h

theorem witness_CommandWriteSets_result : Spec.WritesResult .sepchk := trivial

theorem witness_CommandWriteSets_exec (i : Instr) (s : State) : exec i s = .next (ran i s) := by cases i <;> rfl

/-- Two states that differ in OLEN, RESULT, OBUF and IBUF beyond ILEN. -/
theorem witness_CommandsDependOnInputAndConfigurationOnly :
    let s := loaded qq 4 machine
    let s' := { s with olen := 9, result := 7, obuf := [(0, 1)], ibuf := s.ibuf ++ [(9, 1)] }
    s.fault = false ∧ s'.fault = false ∧ s.params = s'.params ∧ inputSeq s = inputSeq s' ∧ s.ilen = s'.ilen ∧
    s.ocap = s'.ocap ∧ s.sep = s'.sep ∧ s.asciiOnly = s'.asciiOnly ∧ s.maxlen = s'.maxlen ∧ s.arg = s'.arg ∧
    (ran (.b64dec .base64) s).fault = false ∧ (ran .utf8chk s).fault = false := by decide

/-- A faulting case of the same. -/
theorem witness_CommandsDependOnInputAndConfigurationOnly_fault :
    let s := loaded qq 3 machine
    inputSeq s = inputSeq { s with result := 7 } ∧ (ran (.b64dec .base64) s).fault = true := by decide

/-- One state for every code, the bounds ILEN = IBUF_SIZE, OCAP = Req and ARG = N(a) among them. -/
theorem witness_CommandsFaultExactlyWhenTheRulesSay :
    (Instr.b64enc .base64).wellFormed = true ∧ machine.fault = false ∧
    Spec.verdict { machine with ilen := 65 } .utf8chk = 3 ∧ Spec.verdict { machine with arg := 32 } (.tosym .base32) = 6 ∧
    Spec.verdict (loaded qq 3 machine) (.b64dec .base64) = 4 ∧ Spec.verdict (loaded qq 4 machine) (.b64dec .base64) = 0 ∧
    Spec.verdict (loaded hello 0 (smallMachine 5 6)) .utf8chk = 0 ∧
    Spec.verdict (loaded notEnv 0 machine) .unescape = 5 := by decide

/-- F10, and ILEN = 64 = IBUF_SIZE. -/
theorem witness_OverlongInputRaisesLengthFault :
    Instr.unescape.wellFormed = true ∧ machine.fault = false ∧
    ({ machine with ilen := 65 }).params.ibufSize < ({ machine with ilen := 65 } : State).ilen.toNat ∧
    (loaded hello 0 (smallMachine 5 6)).ilen.toNat = (loaded hello 0 (smallMachine 5 6)).params.ibufSize ∧
    (ran .escape (loaded hello 0 (smallMachine 5 6))).fault = true := by decide

theorem witness_OverlongInputRaisesLengthFault_reads : Spec.ReadsInput .unescape := trivial

/-- F11, F12 and F15: OCAP one below Req, one above OBUF_SIZE, and at Req, for B64ENC and for UNESCAPE. -/
theorem witness_IllegalCapacityRaisesCapacityFault :
    (Instr.b64enc .base64).wellFormed = true ∧ Instr.unescape.wellFormed = true ∧
    Spec.Ready (loaded [0x41] 3 machine) ∧ Spec.Ready (loaded [] 65 machine) ∧ Spec.Ready (loaded env41 0 machine) ∧
    (loaded [0x41] 3 machine).ocap.toNat < Spec.requiredCapacity (loaded [0x41] 3 machine) (.b64enc .base64) ∧
    (loaded [] 65 machine).params.obufSize < (loaded [] 65 machine).ocap.toNat ∧
    (loaded [0x41] 4 machine).ocap.toNat = Spec.requiredCapacity (loaded [0x41] 4 machine) (.b64enc .base64) ∧
    hexEnvelope true (inputSeq (loaded env41 0 machine)) = true ∧
    (loaded env41 0 machine).ocap.toNat < Spec.requiredCapacity (loaded env41 0 machine) .unescape ∧
    (loaded env41 1 machine).ocap.toNat = Spec.requiredCapacity (loaded env41 1 machine) .unescape := by decide

theorem witness_IllegalCapacityRaisesCapacityFault_producing :
    ¬Spec.WritesResult (.b64enc .base64) ∧ ¬Spec.WritesResult .unescape := ⟨fun h => h, fun h => h⟩

theorem witness_UnescapeOfNonEnvelopeRaisesNotEnvelope :
    Spec.Ready (loaded notEnv 0 machine) ∧ hexEnvelope true (inputSeq (loaded notEnv 0 machine)) = false := by decide

/-- F16 and F16b. -/
theorem witness_TosymIndexBeyondAlphabetRaisesIndexRange :
    machine.fault = false ∧ (if Alphabet.base32 = .base32 then 32 else 64) ≤ ({ machine with arg := 32 } : State).arg.toNat ∧
    (if Alphabet.base64 = .base32 then 32 else 64) ≤ ({ machine with arg := 64 } : State).arg.toNat := by decide

theorem witness_RomSymbolsFollowTheFormulas : (63 < 64) ∧ (31 < 64 ∧ 31 < 32) := by decide

/-- The last symbol of two sizes, a byte that is no symbol, and the last clause's four kinds of bytes at their bounds. -/
theorem witness_FromSymIsTheTotalInverse :
    63 < alphabetSize .base64url ∧ toSym .base64url 63 = 0x5F ∧ 31 < alphabetSize .base32 ∧ toSym .base32 31 = 0x37 ∧
    (∀ i, i < alphabetSize .base64 → toSym .base64 i ≠ 0x2D) ∧
    (0x80 ≤ (0x80 : Byte).toNat ∧ (0x1F : Byte).toNat < 0x20) := by decide

theorem witness_SymbolsRoundTrip : 31 < alphabetSize .base32 ∧ 63 < alphabetSize .lotus64 := by decide

theorem witness_TosymGivesTheSymbol :
    machine.fault = false ∧ ({ machine with arg := 31 } : State).arg.toNat < (if Alphabet.base32 = .base32 then 32 else 64) ∧
    ({ machine with arg := 63 } : State).arg.toNat < (if Alphabet.base64 = .base32 then 32 else 64) := by decide

theorem witness_FromsymGivesTheIndex : machine.fault = false := by decide

/-- The worked example of 2.2 for 41 42, whose third byte is zero fill, and a five-byte group. -/
theorem witness_SymbolIndicesAreTheBitSlices :
    (0x41 : Byte) = List.getD [0x41, 0x42] (3 * 0) 0 ∧ (0x42 : Byte) = List.getD [0x41, 0x42] (3 * 0 + 1) 0 ∧
    (0x00 : Byte) = List.getD [0x41, 0x42] (3 * 0 + 2) 0 ∧
    (0x6F : Byte) = hello.getD (5 * 0 + 4) 0 ∧ (0x00 : Byte) = hello.getD (5 * 1) 0 := by decide

/-- A data position and a pad position of both families, each at the meeting point. -/
theorem witness_EncodedOutputIsSymbolsThenPads :
    Spec.Uses .base64url sixBit ∧ Spec.Uses .base32 fiveBit ∧
    (1 < dataSymbols sixBit 1) ∧ (dataSymbols sixBit 1 ≤ 2 ∧ 2 < encLen sixBit 1) ∧ (3 < encLen sixBit 1) ∧
    (1 < dataSymbols fiveBit 1) ∧ (dataSymbols fiveBit 1 ≤ 2 ∧ 7 < encLen fiveBit 1) := by decide

/-- ILEN = IBUF_SIZE and OCAP = Req = OBUF_SIZE. -/
theorem witness_EncodeCommandsProduceTheEncoding :
    Alphabet.lotus64 ≠ .base32 ∧ Spec.Ready (loaded env0 8 (smallMachine 6 8)) ∧
    Spec.Fits (loaded env0 8 (smallMachine 6 8)) (4 * (((loaded env0 8 (smallMachine 6 8)).ilen.toNat + 2) / 3)) ∧
    Spec.Ready (loaded env0 16 (smallMachine 6 16)) ∧
    Spec.Fits (loaded env0 16 (smallMachine 6 16)) (8 * (((loaded env0 16 (smallMachine 6 16)).ilen.toNat + 4) / 5)) := by
  decide

/-- The first byte of `QQ==` and of `IE======`, whose groups end before their last symbol, and the last byte of `NBSWY3DP`. The symbol
functions are the ones their premises define. -/
theorem witness_DecodedBytesAreTheBitSlices_symbols :
    (∃ y : Nat → BitVec 6, ∀ j, y j = BitVec.ofNat 6 (match qq[4 * 0 + j]? with | some b => fromSym .base64 b | none => 0)) ∧
    (∃ y : Nat → BitVec 5, ∀ j, y j = BitVec.ofNat 5 (match qq[8 * 0 + j]? with | some b => fromSym .base32 b | none => 0)) :=
  ⟨⟨_, fun _ => rfl⟩, ⟨_, fun _ => rfl⟩⟩

theorem witness_DecodedBytesAreTheBitSlices :
    Alphabet.base64 ≠ .base32 ∧ (3 * 0 + 0 < decLen sixBit qq) ∧ (0 < 3 ∧ 0 < 5) ∧
    (5 * 0 + 0 < decLen fiveBit [0x49, 0x45, 0x3D, 0x3D, 0x3D, 0x3D, 0x3D, 0x3D]) ∧
    (5 * 0 + 4 < decLen fiveBit [0x4E, 0x42, 0x53, 0x57, 0x59, 0x33, 0x44, 0x50]) := by decide

theorem witness_FirstPadFixesTheDecodedLength :
    (∀ k, k < 2 → qq[k]? ≠ some 0x3D) ∧ qq[2]? = some 0x3D ∧ 2 < qq.length := by decide

theorem witness_DecodingIgnoresWhatFollowsTheFirstPad : Spec.Uses .base64 sixBit ∧ Spec.Uses .base32 fiveBit ∧ (0x3D : Byte) ∉ hello := by decide

/-- ILEN = IBUF_SIZE and OCAP = ILEN = OBUF_SIZE. -/
theorem witness_DecodeCommandsProduceTheDecoding :
    Alphabet.itoa64 ≠ .base32 ∧ Spec.Ready (loaded env0 6 (smallMachine 6 6)) ∧
    Spec.Fits (loaded env0 6 (smallMachine 6 6)) (loaded env0 6 (smallMachine 6 6)).ilen.toNat := by decide

theorem witness_DecodingInvertsEncoding : Alphabet.bcrypt64 ≠ .base32 := by decide

/-- `QQ==`, moved from OBUF to IBUF. -/
theorem witness_EncodeThenDecodeCommandsReturnTheInput :
    let s := loaded [0x41] 4 machine
    let s1 := ran (.b64enc .base64) s
    let t := loaded qq 4 s1
    s.fault = false ∧ s1.fault = false ∧ Spec.Ready t ∧ Spec.Fits t t.ilen.toNat ∧ t.ilen = s1.olen ∧
    (∀ k, k < t.ilen.toNat → t.ibuf.read k = s1.obuf.read k) := by decide

theorem witness_EncodeThenDecodeCommandsReturnTheInput_exec :
    exec (.b64enc .base64) (loaded [0x41] 4 machine) = .next (ran (.b64enc .base64) (loaded [0x41] 4 machine)) := rfl

/-- `IE======`, for the other family. -/
theorem witness_EncodeThenDecodeCommandsReturnTheInput_b32 :
    let s := loaded [0x41] 8 machine
    let s1 := ran (.b32enc .base32) s
    let t := loaded [0x49, 0x45, 0x3D, 0x3D, 0x3D, 0x3D, 0x3D, 0x3D] 8 s1
    s.fault = false ∧ s1.fault = false ∧ Spec.Ready t ∧ Spec.Fits t t.ilen.toNat ∧ t.ilen = s1.olen ∧
    (∀ k, k < t.ilen.toNat → t.ibuf.read k = s1.obuf.read k) := by decide

theorem witness_WellFormednessIsCompositional : wellFormedUtf8 [0xE2, 0x82, 0xAC] = true := by decide

/-- ILEN = IBUF_SIZE, for every predicate command. -/
theorem witness_Utf8chkGivesTheVerdict : Spec.Ready (loaded hello 0 (smallMachine 5 6)) := by decide
theorem witness_AsciichkTestsPrintability : Spec.Ready (loaded hello 0 (smallMachine 5 6)) := by decide
theorem witness_SepchkTestsForTheSeparator : Spec.Ready (loaded abcd 0 (smallMachine 5 6)) := by decide
theorem witness_HexchkTestsTheEnvelopeConditions : Spec.Ready (loaded env0 0 (smallMachine 6 6)) := by decide
theorem witness_NeedescGivesTheOrOfTheThreeFacts : Spec.Ready (loaded env0 0 (smallMachine 6 6)) := by decide
theorem witness_NeedescEqualsItsComponents : Spec.Ready (loaded abcd 0 (smallMachine 5 6)) := by decide

theorem witness_HexDigitsAreLowerCaseAndInvertible : 10 ≤ (10 : BitVec 4).toNat := by decide

/-- OCAP = Req, with ILEN equal to MAXLEN and above it (F14). -/
theorem witness_EscapeProducesTheEnvelope :
    let s := loaded abcd 16 { machine with maxlen := 5 }
    let u := loaded abcd 10 { machine with maxlen := 2 }
    5 = min s.ilen.toNat s.maxlen.toNat ∧ Spec.Ready s ∧ Spec.Fits s (6 + 2 * 5) ∧ (inputSeq s)[4]? = some 0x64 ∧
    2 = min u.ilen.toNat u.maxlen.toNat ∧ Spec.Ready u ∧ Spec.Fits u (6 + 2 * 2) ∧ (inputSeq u)[1]? = some 0x62 := by decide

/-- OCAP = Req, with a payload and without one. -/
theorem witness_UnescapeProducesThePayloadAndZeroes :
    let s := loaded env41 1 machine
    let e := loaded env0 0 machine
    Spec.Ready s ∧ hexEnvelope s.params.hexUpperOk (inputSeq s) = true ∧ Spec.Fits s ((s.ilen.toNat - 6) / 2) ∧
    (inputSeq s)[5 + 2 * 0]? = some 0x34 ∧ (inputSeq s)[6 + 2 * 0]? = some 0x31 ∧
    Spec.Ready e ∧ hexEnvelope e.params.hexUpperOk (inputSeq e) = true ∧ Spec.Fits e ((e.ilen.toNat - 6) / 2) := by decide

/-- The byte 41 with room for one byte. -/
theorem witness_EscapeThenUnescapeCommandsReturnTheInput :
    let s := loaded [0x41] 8 { machine with maxlen := 256 }
    let s1 := ran .escape s
    let t := loaded env41 1 s1
    1 = min s.ilen.toNat s.maxlen.toNat ∧ s.fault = false ∧ s1.fault = false ∧ Spec.Ready t ∧ Spec.Fits t 1 ∧
    t.ilen = s1.olen ∧ (∀ k, k < t.ilen.toNat → t.ibuf.read k = s1.obuf.read k) := by decide

theorem witness_EscapeThenUnescapeCommandsReturnTheInput_exec :
    exec .escape (loaded [0x41] 8 { machine with maxlen := 256 }) =
      .next (ran .escape (loaded [0x41] 8 { machine with maxlen := 256 })) := rfl

/-- An envelope as the field, at the maximum length. -/
theorem witness_TransportRecoversEveryField : env41.length ≤ 8 := by decide

/-- The last register's last byte, the last index of each buffer, and windows that touch: REG, IBUF and OBUF back to back. -/
theorem witness_WindowsGiveDifferentFlatAddresses :
    let p : Params := ⟨64, 64, true, 0x0, 0x30, 0x70⟩
    p.Valid ∧ 3 < 4 ∧ 63 < p.ibufSize ∧ 63 < p.obufSize := by decide

/-! ### R6: the windows -/

/-- Windows that overlap are no legal parameters: IBUF starts inside REG, OBUF inside IBUF. -/
theorem test_overlap_refused :
    ¬(⟨64, 64, true, 0x0, 0x2F, 0x1000⟩ : Params).Valid ∧ ¬(⟨64, 64, true, 0x1000, 0x0, 0x3F⟩ : Params).Valid := by decide
/-- IBUF first, then OBUF, then REG, with gaps 1, 2 and 3. -/
theorem test_window_bases : windowBases .ibufObufReg 1 2 3 6 8 = (20, 1, 9) := by decide
/-- `[` (0x5B) is no boolean, index or symbol. -/
theorem test_result_legal : ¬ResultLegal { machine with result := 0x5B } ∧ ResultLegal { machine with result := 0x5F } := by decide

end Sys2Proof.Tests
end

/-! ## What a command can do (R36)

One inversion of `exec` for all thirteen commands, so that no later proof splits them again. -/
namespace Sys2Proof.Machine

/-- What command `i` can make of state `s`: it is ignored, it faults, it writes RESULT, or it stores an output. `n` is how many input
bytes it has read by then (log entry 2). -/
inductive CommandOutcome (i : Instr) (s : State) : State → Prop where
  /-- R294. -/
  | ignored (hf : s.fault = true) : CommandOutcome i s s
  /-- R293. -/
  | faulted (hf : s.fault = false) (c : Cause) (n : Nat) : CommandOutcome i s (takeFault c (countReads n s))
  /-- A predicate or symbol command that succeeds. -/
  | result (hf : s.fault = false) (hi : Spec.WritesResult i) (b : Byte) (n : Nat) :
      CommandOutcome i s (setResult b (countReads n s))
  /-- A producing command that succeeds; its capacity check has passed (R298). -/
  | produced (hf : s.fault = false) (hi : ¬Spec.WritesResult i) (hcap : s.ocap.toNat ≤ s.params.obufSize)
      (tail : Tail) (out : List Byte) (n : Nat) :
      CommandOutcome i s (storeOutput tail out (countReads n s))

/-- Fault entry before any input byte is read. -/
theorem CommandOutcome.faulted_unread {i : Instr} {s : State} (hf : s.fault = false) (c : Cause) :
    CommandOutcome i s (takeFault c s) :=
  .faulted hf c 0

theorem unlessFaulted_outcome {i : Instr} {s : State} {k : State → State}
    (hk : s.fault = false → CommandOutcome i s (k s)) : CommandOutcome i s (unlessFaulted s k) := by
  rcases unlessFaulted_cases s k with ⟨hf, e⟩ | ⟨hf, e⟩ <;> rw [e]
  · exact .ignored hf
  · exact hk hf

theorem predicateCommand_outcome {i : Instr} (hi : Spec.WritesResult i) (p : State → List Byte → Bool) (s : State) :
    CommandOutcome i s (predicateCommand p s) := by
  rcases predicateCommand_cases p s with ⟨hf, e⟩ | ⟨hf, -, e⟩ | ⟨hf, -, e⟩ <;> rw [e]
  · exact .ignored hf
  · exact .faulted_unread hf _
  · exact .result hf hi _ _

theorem producingCommand_outcome {i : Instr} {s : State} (hi : ¬Spec.WritesResult i) (hf : s.fault = false)
    (req n : Nat) (f : List Byte → List Byte) : CommandOutcome i s (producingCommand req n f s) := by
  rcases producingCommand_cases req n f s with ⟨-, e⟩ | ⟨-, -, e⟩ | ⟨-, hcap, -, e⟩ <;> rw [e]
  · exact .faulted_unread hf _
  · exact .faulted_unread hf _
  · exact .produced hf hi hcap _ _ _

/-- The shape of the grouped codecs: the alphabet check, then a producing command. -/
theorem groupedCodec_outcome {i : Instr} (hi : ¬Spec.WritesResult i) (size : Nat) (a : Alphabet)
    (req n : State → Nat) (f : List Byte → List Byte) (s : State) :
    CommandOutcome i s
      (unlessFaulted s fun s => checkAlpha size a s fun s => producingCommand (req s) (n s) f s) := by
  refine unlessFaulted_outcome fun hf => ?_
  rcases checkAlpha_cases size a s fun s => producingCommand (req s) (n s) f s with ⟨-, e⟩ | ⟨-, e⟩ <;> rw [e]
  · exact producingCommand_outcome hi hf _ _ _
  · exact .faulted_unread hf _

theorem execTosym_outcome {a : Alphabet} {s t : State} (h : execTosym a s = .next t) :
    CommandOutcome (.tosym a) s t := by
  obtain rfl := Host.Outcome.next.inj h
  refine unlessFaulted_outcome fun hf => ?_
  split
  · exact .faulted_unread hf _
  · exact .result hf (by trivial) _ 0

theorem execFromsym_outcome {a : Alphabet} {s t : State} (h : execFromsym a s = .next t) :
    CommandOutcome (.fromsym a) s t := by
  obtain rfl := Host.Outcome.next.inj h
  exact unlessFaulted_outcome fun hf => .result hf (by trivial) _ 0

theorem execEscape_outcome {s t : State} (h : execEscape s = .next t) : CommandOutcome .escape s t := by
  obtain rfl := Host.Outcome.next.inj h
  exact unlessFaulted_outcome fun hf => producingCommand_outcome id hf _ _ _

theorem execUnescape_outcome {s t : State} (h : execUnescape s = .next t) : CommandOutcome .unescape s t := by
  rcases execUnescape_cases s with ⟨hf, e⟩ | ⟨hf, -, e⟩ | ⟨hf, -, -, e⟩ | ⟨hf, -, -, -, e⟩ | ⟨hf, -, -, hcap, -, e⟩ <;>
    obtain rfl := Host.Outcome.next.inj (e.symm.trans h)
  · exact .ignored hf
  · exact .faulted_unread hf _
  · exact .faulted hf _ _
  · exact .faulted hf _ _
  · exact .produced hf id hcap _ _ _

theorem exec_outcome {i : Instr} {s t : State} (h : exec i s = .next t) : CommandOutcome i s t := by
  cases i with
  | tosym a => exact execTosym_outcome h
  | fromsym a => exact execFromsym_outcome h
  | escape => exact execEscape_outcome h
  | unescape => exact execUnescape_outcome h
  | utf8chk | asciichk | sepchk | hexchk | needesc =>
    obtain rfl := Host.Outcome.next.inj h
    exact predicateCommand_outcome (by trivial) _ _
  | b64enc a | b64dec a | b32enc a | b32dec a =>
    obtain rfl := Host.Outcome.next.inj h
    exact groupedCodec_outcome id _ a _ _ _ s

theorem CommandOutcome.params_eq {i : Instr} {s t : State} (h : CommandOutcome i s t) : t.params = s.params := by
  cases h <;> rfl

/-- A stored output leaves OBUF at OCAP and beyond as it was (R26), also where the output is longer than OCAP. -/
theorem storeOutput_read_of_ocap_le (tail : Tail) (out : List Byte) (s : State) {p : Nat} (hp : s.ocap.toNat ≤ p) :
    (storeOutput tail out s).obuf.read p = s.obuf.read p := by
  rw [storeOutput_obuf, read_overwrite, if_neg (Nat.not_lt.mpr hp)]

end Sys2Proof.Machine

/-! ## Registers and their offsets (R22, R34) -/
namespace Sys2Proof.Machine

@[simp] theorem regAt_regOffset (r : Reg) : regAt (regOffset r) = some r := by
  cases r <;> rfl

theorem regOffset_lt (r : Reg) : regOffset r < 0x30 := by
  cases r <;> decide

theorem eq_regOffset_of_regAt {off : Nat} {r : Reg} (h : regAt off = some r) : off = regOffset r := by
  unfold regAt at h
  split at h <;> cases h <;> rfl

theorem regAt_eq_none_of_le {off : Nat} (h : 0x30 ≤ off) : regAt off = none := by
  refine Option.eq_none_iff_forall_ne_some.mpr fun r hr => ?_
  have := eq_regOffset_of_regAt hr ▸ regOffset_lt r
  omega

theorem regAt_eq_none_iff (off : Nat) : regAt off = none ↔ 0x30 ≤ off ∨ off % 4 ≠ 0 := by
  rcases Nat.lt_or_ge off 0x30 with h | h
  · have table : ∀ o < 0x30, regAt o = none ↔ 0x30 ≤ o ∨ o % 4 ≠ 0 := by decide
    exact table off h
  · exact iff_of_true (regAt_eq_none_of_le h) (.inl h)

theorem regAccess_eq_none_iff (bits off : Nat) :
    regAccess bits off = none ↔ bits ≠ 32 ∨ 0x30 ≤ off ∨ off % 4 ≠ 0 := by
  unfold regAccess
  split
  · simp [*, regAt_eq_none_iff]
  · simp [*]

@[simp] theorem regAccess_regOffset (r : Reg) : regAccess 32 (regOffset r) = some r :=
  regAt_regOffset r

@[simp] theorem writeReg_params (r : Reg) (v : Word) (s : State) : (writeReg r v s).params = s.params := by
  cases r <;> rfl

theorem readReg_ibufsz_toNat {s : State} (h : s.params.SizesLegal) :
    (readReg .ibufsz s).toNat = s.params.ibufSize := by
  obtain ⟨-, hi, -, -⟩ := h
  rw [readReg, BitVec.toNat_ofNat, Nat.mod_eq_of_lt (by omega)]

theorem readReg_obufsz_toNat {s : State} (h : s.params.SizesLegal) :
    (readReg .obufsz s).toNat = s.params.obufSize := by
  obtain ⟨-, -, -, ho⟩ := h
  rw [readReg, BitVec.toNat_ofNat, Nat.mod_eq_of_lt (by omega)]

end Sys2Proof.Machine

/-! ## Serving an event (R5, R61, R75) -/
namespace Sys2Proof.Machine

theorem step_of_pending_nil {s : State} (h : s.pending = []) : step s = .next s := by
  simp only [step, serveNext, h]

theorem step_of_pending_cons {s : State} {e : HostEvent} {rest : List HostEvent} (h : s.pending = e :: rest) :
    step s = serve e (popEvent rest s) := by
  simp only [step, serveNext, h]

section RegisterAccess
variable {bits off : Nat} {r : Reg}

theorem serve_regWrite_stray (h : regAccess bits off = none) (v : Word) (s : State) :
    serve (.regWrite bits off v) s = .refused (.strayRegister bits off) := by
  simp only [serve, h]

theorem serve_regRead_stray (h : regAccess bits off = none) (s : State) :
    serve (.regRead bits off) s = .refused (.strayRegister bits off) := by
  simp only [serve, h]

theorem serve_regWrite_cmd (h : regAccess bits off = some .cmd) (w : Word) (s : State) :
    serve (.regWrite bits off w) s = issue w s := by
  simp only [serve, h]

theorem serve_regWrite_of_ne_cmd (h : regAccess bits off = some r) (hr : r ≠ .cmd) (v : Word) (s : State) :
    serve (.regWrite bits off v) s = .next (writeReg r v s) := by
  simp only [serve, h]

theorem serve_regRead (h : regAccess bits off = some r) (s : State) :
    serve (.regRead bits off) s = .next { s with reply := some (.word (readReg r s)) } := by
  simp only [serve, h]

end RegisterAccess

/-- A write to CMD is ignored, runs the command its word encodes, or takes the fault of the word's decoding (R23). -/
theorem issue_cases (w : Word) (s : State) :
    (s.fault = true ∧ issue w s = .next s) ∨
    (∃ i, s.fault = false ∧ decode w = .command i ∧ issue w s = exec i s) ∨
    (s.fault = false ∧ decode w = .illegalCommand ∧ issue w s = .next (takeFault .illegalCommand s)) ∨
    (s.fault = false ∧ decode w = .illegalAlpha ∧ issue w s = .next (takeFault .illegalAlpha s)) := by
  unfold issue
  cases hf : s.fault
  · cases hd : decode w <;> simp
  · simp

theorem issue_answers_next (w : Word) (s : State) : ∃ t, issue w s = .next t := by
  rcases issue_cases w s with ⟨-, e⟩ | ⟨i, -, -, e⟩ | ⟨-, -, e⟩ | ⟨-, -, e⟩ <;> rw [e]
  · exact ⟨_, rfl⟩
  · exact exec_answers_next i s
  · exact ⟨_, rfl⟩
  · exact ⟨_, rfl⟩

theorem issue_keeps_params {w : Word} {s t : State} (h : issue w s = .next t) : t.params = s.params := by
  rcases issue_cases w s with ⟨-, e⟩ | ⟨i, -, -, e⟩ | ⟨-, -, e⟩ | ⟨-, -, e⟩ <;> rw [e] at h
  · rw [Host.Outcome.next.inj h]
  · exact (exec_outcome h).params_eq
  · rw [← Host.Outcome.next.inj h, takeFault_params]
  · rw [← Host.Outcome.next.inj h, takeFault_params]

/-- Everything that serving an event can do, when it answers a next state. -/
inductive Served (s : State) : HostEvent → State → Prop where
  | command {bits off : Nat} {w : Word} {t : State} (hr : regAccess bits off = some .cmd) (h : issue w s = .next t) :
      Served s (.regWrite bits off w) t
  | regWrite {bits off : Nat} {r : Reg} (hr : regAccess bits off = some r) (hcmd : r ≠ .cmd) (v : Word) :
      Served s (.regWrite bits off v) (writeReg r v s)
  | regRead {bits off : Nat} {r : Reg} (hr : regAccess bits off = some r) :
      Served s (.regRead bits off) { s with reply := some (.word (readReg r s)) }
  | ibufWrite {a : Nat} (ha : a < s.params.ibufSize) (b : Byte) :
      Served s (.ibufWrite 8 a b) { s with ibuf := s.ibuf.write a b }
  | ibufRead {a : Nat} (ha : a < s.params.ibufSize) :
      Served s (.ibufRead 8 a) { countReads 1 s with reply := some (.byte (readByte s.ibuf a s.draws)) }
  | obufWrite {a : Nat} (ha : a < s.params.obufSize) (b : Byte) :
      Served s (.obufWrite 8 a b) { s with obuf := s.obuf.write a b }
  | obufRead {a : Nat} (ha : a < s.params.obufSize) :
      Served s (.obufRead 8 a) { countReads 1 s with reply := some (.byte (readByte s.obuf a s.draws)) }
  | reset : Served s .platformReset (platformReset s)

/-- A buffer access, written as `serve` writes it, answers a next state only when it is one byte wide and inside the buffer. -/
theorem bufferAccess_of_next {bits a size : Nat} {u t : State} {r : Refusal}
    (h : (if bufferAccess bits a size then Host.Outcome.next u else .refused r) = (.next t : Host.Outcome State Fault Refusal)) :
    bits = 8 ∧ a < size ∧ u = t := by
  split at h
  next hacc =>
    obtain ⟨hbits, ha⟩ := of_decide_eq_true hacc
    exact ⟨hbits, ha, Host.Outcome.next.inj h⟩
  next => cases h

theorem serve_served {e : HostEvent} {s t : State} (h : serve e s = .next t) : Served s e t := by
  cases e with
  | regWrite bits off v =>
    cases hr : regAccess bits off with
    | none => rw [serve_regWrite_stray hr] at h; cases h
    | some r =>
      by_cases hcmd : r = .cmd
      · subst hcmd
        exact .command hr (serve_regWrite_cmd hr v s ▸ h)
      · rw [serve_regWrite_of_ne_cmd hr hcmd] at h
        exact Host.Outcome.next.inj h ▸ .regWrite hr hcmd v
  | regRead bits off =>
    cases hr : regAccess bits off with
    | none => rw [serve_regRead_stray hr] at h; cases h
    | some r =>
      rw [serve_regRead hr] at h
      exact Host.Outcome.next.inj h ▸ .regRead hr
  | ibufWrite bits a b =>
    obtain ⟨rfl, ha, rfl⟩ := bufferAccess_of_next h
    exact .ibufWrite ha b
  | ibufRead bits a =>
    obtain ⟨rfl, ha, rfl⟩ := bufferAccess_of_next h
    exact .ibufRead ha
  | obufWrite bits a b =>
    obtain ⟨rfl, ha, rfl⟩ := bufferAccess_of_next h
    exact .obufWrite ha b
  | obufRead bits a =>
    obtain ⟨rfl, ha, rfl⟩ := bufferAccess_of_next h
    exact .obufRead ha
  | platformReset => exact Host.Outcome.next.inj h ▸ .reset

theorem Served.params_eq {e : HostEvent} {s t : State} (h : Served s e t) : t.params = s.params := by
  cases h with
  | command _ h => exact issue_keeps_params h
  | regWrite => exact writeReg_params _ _ _
  | regRead | ibufWrite | ibufRead | obufWrite | obufRead | reset => rfl

/-- A step that answers a next state is idle, or it has served the oldest event in the state without it. -/
theorem step_cases {s t : State} (h : step s = .next t) :
    (s.pending = [] ∧ t = s) ∨ ∃ e rest, s.pending = e :: rest ∧ Served (popEvent rest s) e t := by
  cases hp : s.pending with
  | nil =>
    rw [step_of_pending_nil hp] at h
    exact .inl ⟨rfl, (Host.Outcome.next.inj h).symm⟩
  | cons e rest =>
    rw [step_of_pending_cons hp] at h
    exact .inr ⟨e, rest, rfl, serve_served h⟩

theorem step_keeps_params {s t : State} (h : step s = .next t) : t.params = s.params := by
  rcases step_cases h with ⟨-, rfl⟩ | ⟨e, rest, -, hs⟩
  · rfl
  · exact hs.params_eq

theorem serve_regWrite_answers_next {bits off : Nat} {r : Reg} (h : regAccess bits off = some r) (v : Word) (s : State) :
    ∃ t, serve (.regWrite bits off v) s = .next t := by
  by_cases hr : r = .cmd
  · subst hr
    exact serve_regWrite_cmd h v s ▸ issue_answers_next v s
  · exact ⟨_, serve_regWrite_of_ne_cmd h hr v s⟩

end Sys2Proof.Machine

/-! ## The statements on registers and write sets -/
namespace Sys2Proof.Proofs

open Sys2Proof.Machine

/-- Settles O10: the sizes fit in 32 bits, IBUFSZ and OBUFSZ store nothing, and `step_keeps_params`. -/
theorem sizeRegistersReadTheParameters : Obligations.SizeRegistersReadTheParameters := by
  refine ⟨fun s h => ⟨readReg_ibufsz_toNat h, readReg_obufsz_toNat h⟩, ?_, fun s t => step_keeps_params⟩
  intro s v rest off hoff hp
  rw [step_of_pending_cons hp]
  simp only [List.mem_cons, List.not_mem_nil, or_false] at hoff
  rcases hoff with rfl | rfl
  · exact serve_regWrite_of_ne_cmd (regAccess_regOffset .ibufsz) (by decide) v _
  · exact serve_regWrite_of_ne_cmd (regAccess_regOffset .obufsz) (by decide) v _

/-- Settles O11: an access is refused exactly when `regAccess` finds no register (`regAccess_eq_none_iff`). -/
theorem strayRegisterAccessIsRefused : Obligations.StrayRegisterAccessIsRefused := by
  refine fun s rest bits off v => ⟨fun hstray => ?_, fun hbits hlt halign => ?_⟩
  · have hr : regAccess bits off = none := (regAccess_eq_none_iff bits off).mpr hstray
    exact ⟨fun hp => (step_of_pending_cons hp).trans (serve_regWrite_stray hr v _),
      fun hp => (step_of_pending_cons hp).trans (serve_regRead_stray hr _)⟩
  · have hsome : regAccess bits off ≠ none := fun h => by
      have := (regAccess_eq_none_iff bits off).mp h
      omega
    obtain ⟨r, hr⟩ := Option.ne_none_iff_exists'.mp hsome
    exact ⟨fun hp => step_of_pending_cons hp ▸ serve_regWrite_answers_next hr v _,
      fun hp => ⟨_, (step_of_pending_cons hp).trans (serve_regRead hr _)⟩⟩

/-- Settles O20, by the four outcomes of a command. -/
theorem commandWriteSets : Obligations.CommandWriteSets := by
  intro i s t h
  cases exec_outcome h with
  | ignored hf => simp [hf]
  | faulted hf c n => exact ⟨by simp [hf], fun _ _ => rfl, by simp, by simp⟩
  | result hf hi b n => exact ⟨by simp [hf], by simp [hf], fun _ _ _ => rfl, fun _ _ hn => absurd hi hn⟩
  | produced hf hi hcap tail out n =>
    exact ⟨by simp [hf], by simp [hf], fun _ _ hw => absurd hw hi,
      fun _ _ _ => ⟨rfl, fun p hp => storeOutput_read_of_ocap_le tail out (countReads n s) hp⟩⟩

end Sys2Proof.Proofs

/-! ## What a command word decodes to (R92 to R97)

`decode` is split once, by ZERO and by the family of OP; the statements on illegal words follow from the families. -/
namespace Sys2Proof

theorem decodePlain_eq_illegalCommand_iff (i : Instr) (c : BitVec 4) : decodePlain i c = .illegalCommand ↔ c ≠ 0 := by
  unfold decodePlain
  split
  next hc => simp [hc]
  next hc => exact iff_of_true rfl hc

theorem decodePlain_ne_illegalAlpha (i : Instr) (c : BitVec 4) : decodePlain i c ≠ .illegalAlpha := by
  unfold decodePlain
  split <;> simp

theorem decodeWithAlpha_ne_illegalCommand (mk : Alphabet → Instr) (c : BitVec 4) :
    decodeWithAlpha mk c ≠ .illegalCommand := by
  unfold decodeWithAlpha
  split
  · simp
  · split <;> simp

/-- A command that admits the alphabets in `p` refuses every code but theirs. -/
theorem decodeWithAlpha_eq_illegalAlpha_iff {mk : Alphabet → Instr} {p : Alphabet → Bool}
    (hmk : ∀ a, (mk a).wellFormed = p a) (c : BitVec 4) :
    decodeWithAlpha mk c = .illegalAlpha ↔ (alphabetOfCode c).any p = false := by
  unfold decodeWithAlpha
  cases alphabetOfCode c with
  | none => simp
  | some a => cases h : p a <;> simp [hmk, h]

/-- The codes of no alphabet are the reserved ones (R93). -/
theorem no_alphabet_iff (c : BitVec 4) : (alphabetOfCode c).any (fun _ => true) = false ↔ 6 ≤ c.toNat := by
  revert c; decide

theorem no_64_symbol_alphabet_iff (c : BitVec 4) :
    (alphabetOfCode c).any (fun a => a ≠ .base32) = false ↔ c.toNat ∉ [0, 1, 3, 4, 5] := by
  revert c; decide

theorem no_32_symbol_alphabet_iff (c : BitVec 4) :
    (alphabetOfCode c).any (fun a => a = .base32) = false ↔ c.toNat ≠ 2 := by
  revert c; decide

/-- Everything that decoding a word can do: its ZERO field is nonzero, or its OP belongs to one of the families of R92
or to none. -/
inductive DecodedAs (w : Word) : Decoded → Prop where
  | nonzero (hz : zeroField w ≠ 0) : DecodedAs w .illegalCommand
  /-- TOSYM and FROMSYM admit every alphabet. -/
  | symbol (hz : zeroField w = 0) (hop : (opField w).toNat ∈ [0x01, 0x02]) {mk : Alphabet → Instr}
      (hmk : ∀ a, (mk a).wellFormed = true) : DecodedAs w (decodeWithAlpha mk (alphaField w))
  /-- B64ENC and B64DEC. -/
  | base64 (hz : zeroField w = 0) (hop : (opField w).toNat ∈ [0x10, 0x11]) {mk : Alphabet → Instr}
      (hmk : ∀ a, (mk a).wellFormed = decide (a ≠ .base32)) : DecodedAs w (decodeWithAlpha mk (alphaField w))
  /-- B32ENC and B32DEC. -/
  | base32 (hz : zeroField w = 0) (hop : (opField w).toNat ∈ [0x12, 0x13]) {mk : Alphabet → Instr}
      (hmk : ∀ a, (mk a).wellFormed = decide (a = .base32)) : DecodedAs w (decodeWithAlpha mk (alphaField w))
  /-- The commands without alphabet. -/
  | plain (hz : zeroField w = 0) (hop : (opField w).toNat ∈ [0x20, 0x30, 0x31, 0x32, 0x33, 0x40, 0x41]) (i : Instr) :
      DecodedAs w (decodePlain i (alphaField w))
  | unknown (hz : zeroField w = 0)
      (hop : (opField w).toNat ∉ [0x01, 0x02, 0x10, 0x11, 0x12, 0x13, 0x20, 0x30, 0x31, 0x32, 0x33, 0x40, 0x41]) :
      DecodedAs w .illegalCommand

theorem decode_decodedAs (w : Word) : DecodedAs w (decode w) := by
  unfold decode
  split
  next hz => exact .nonzero hz
  next hz =>
    replace hz := not_not.mp hz
    split
    next hop => exact .symbol hz (by simp [hop]) fun _ => rfl
    next hop => exact .symbol hz (by simp [hop]) fun _ => rfl
    next hop => exact .base64 hz (by simp [hop]) fun _ => rfl
    next hop => exact .base64 hz (by simp [hop]) fun _ => rfl
    next hop => exact .base32 hz (by simp [hop]) fun _ => rfl
    next hop => exact .base32 hz (by simp [hop]) fun _ => rfl
    iterate 7
      next hop => exact .plain hz (by simp [hop]) _
    next => exact .unknown hz (by simp_all)

/-- R94, over the fields of the word. -/
theorem decode_eq_illegalCommand_iff (w : Word) :
    decode w = .illegalCommand ↔
      zeroField w ≠ 0 ∨
      (opField w).toNat ∉ [0x01, 0x02, 0x10, 0x11, 0x12, 0x13, 0x20, 0x30, 0x31, 0x32, 0x33, 0x40, 0x41] ∨
      ((opField w).toNat ∈ [0x20, 0x30, 0x31, 0x32, 0x33, 0x40, 0x41] ∧ alphaField w ≠ 0) := by
  have hd := decode_decodedAs w
  generalize decode w = d at hd ⊢
  cases hd with
  | nonzero hz => exact iff_of_true rfl (.inl hz)
  | unknown hz hop => exact iff_of_true rfl (.inr (.inl hop))
  | plain hz hop i =>
    have hknown : (opField w).toNat ∈ [0x01, 0x02, 0x10, 0x11, 0x12, 0x13] ++ [0x20, 0x30, 0x31, 0x32, 0x33, 0x40, 0x41] :=
      List.mem_append_right _ hop
    rw [decodePlain_eq_illegalCommand_iff]
    refine ⟨fun hc => .inr (.inr ⟨hop, hc⟩), ?_⟩
    rintro (h | h | ⟨-, hc⟩)
    · exact absurd hz h
    · exact absurd hknown h
    · exact hc
  | symbol hz hop _ | base64 hz hop _ | base32 hz hop _ =>
    refine iff_of_false (decodeWithAlpha_ne_illegalCommand _ _) ?_
    simp only [List.mem_cons, List.not_mem_nil, or_false] at hop ⊢
    rintro (h | h | ⟨h, -⟩)
    · exact h hz
    · omega
    · omega

/-- R95, over the fields of the word. -/
theorem decode_eq_illegalAlpha_iff (w : Word) :
    decode w = .illegalAlpha ↔
      zeroField w = 0 ∧
      (((opField w).toNat ∈ [0x01, 0x02] ∧ 6 ≤ (alphaField w).toNat) ∨
       ((opField w).toNat ∈ [0x10, 0x11] ∧ (alphaField w).toNat ∉ [0, 1, 3, 4, 5]) ∨
       ((opField w).toNat ∈ [0x12, 0x13] ∧ (alphaField w).toNat ≠ 2)) := by
  have hd := decode_decodedAs w
  generalize decode w = d at hd ⊢
  cases hd
  case nonzero hz => exact iff_of_false nofun fun ⟨hzero, _⟩ => hz hzero
  case' unknown hz hop => refine iff_of_false nofun ?_
  case' plain hz hop i => refine iff_of_false (decodePlain_ne_illegalAlpha _ _) ?_
  case' symbol hz hop mk hmk => rw [decodeWithAlpha_eq_illegalAlpha_iff hmk, no_alphabet_iff]
  case' base64 hz hop mk hmk => rw [decodeWithAlpha_eq_illegalAlpha_iff hmk, no_64_symbol_alphabet_iff]
  case' base32 hz hop mk hmk => rw [decodeWithAlpha_eq_illegalAlpha_iff hmk, no_32_symbol_alphabet_iff]
  all_goals
    simp only [List.mem_cons, List.not_mem_nil, or_false, hz, true_and] at hop ⊢
    omega

end Sys2Proof

/-! ## A step that serves a write to CMD (R23) -/
namespace Sys2Proof.Machine

theorem step_of_command_write {s : State} {w : Word} {rest : List HostEvent}
    (h : s.pending = .regWrite 32 0x00 w :: rest) : step s = issue w (popEvent rest s) :=
  (step_of_pending_cons h).trans (serve_regWrite_cmd (regAccess_regOffset .cmd) w _)

theorem issue_of_illegalCommand {w : Word} {s : State} (hf : s.fault = false) (hd : decode w = .illegalCommand) :
    issue w s = .next (takeFault .illegalCommand s) := by
  simp [issue, hf, hd]

theorem issue_of_illegalAlpha {w : Word} {s : State} (hf : s.fault = false) (hd : decode w = .illegalAlpha) :
    issue w s = .next (takeFault .illegalAlpha s) := by
  simp [issue, hf, hd]

end Sys2Proof.Machine

/-! ## The statements on illegal command words -/
namespace Sys2Proof.Proofs

open Sys2Proof.Machine

/-- Settles O6, by the families of OP (`decode_eq_illegalCommand_iff`) and fault entry in the state without the event. -/
theorem illegalWordRaisesIllegalCommand : Obligations.IllegalWordRaisesIllegalCommand := by
  refine ⟨decode_eq_illegalCommand_iff, rfl, fun s w rest hf hp hd => ?_⟩
  exact (step_of_command_write hp).trans (issue_of_illegalCommand hf hd)

/-- Settles O7, by the families of OP (`decode_eq_illegalAlpha_iff`) and fault entry in the state without the event. -/
theorem illegalAlphabetRaisesIllegalAlpha : Obligations.IllegalAlphabetRaisesIllegalAlpha := by
  refine ⟨decode_eq_illegalAlpha_iff, fun s w rest hf hp hd => ?_⟩
  exact (step_of_command_write hp).trans (issue_of_illegalAlpha hf hd)

end Sys2Proof.Proofs

/-! ## Symbols and their indices (R120, R128)

`fromSym` is the library's `List.idxOf` in the ROM; the ROM's symbols are all different and none is PAD, a control byte or
above 0x7F. -/
namespace Sys2Proof.Machine

@[simp] theorem rom_length (a : Alphabet) : (rom a).length = alphabetSize a := by cases a <;> rfl

theorem rom_nodup (a : Alphabet) : (rom a).Nodup := by cases a <;> decide

theorem toSym_eq_getElem {a : Alphabet} {i : Nat} (h : i < alphabetSize a) :
    toSym a i = (rom a)[i]'((rom_length a).symm ▸ h) :=
  List.getD_eq_getElem ..

theorem mem_rom_iff (a : Alphabet) (b : Byte) : b ∈ rom a ↔ ∃ i, i < alphabetSize a ∧ toSym a i = b := by
  rw [List.mem_iff_getElem]
  constructor
  · rintro ⟨i, hi, rfl⟩
    have hi' : i < alphabetSize a := rom_length a ▸ hi
    exact ⟨i, hi', toSym_eq_getElem hi'⟩
  · rintro ⟨i, hi, rfl⟩
    exact ⟨i, _, (toSym_eq_getElem hi).symm⟩

theorem indexFrom_of_mem {b : Byte} {l : List Byte} (h : b ∈ l) (i : Nat) : indexFrom b i l = some (i + l.idxOf b) := by
  induction l generalizing i with
  | nil => cases h
  | cons c cs ih =>
    by_cases hc : c = b
    · simp [indexFrom, hc]
    · have hcs : b ∈ cs := List.mem_of_ne_of_mem (Ne.symm hc) h
      simp only [indexFrom, hc, if_false, ih hcs, List.idxOf_cons_ne cs hc]
      congr 1
      omega

theorem indexFrom_of_notMem {b : Byte} {l : List Byte} (h : b ∉ l) (i : Nat) : indexFrom b i l = none := by
  induction l generalizing i with
  | nil => rfl
  | cons c cs ih =>
    obtain ⟨hc, hcs⟩ := List.ne_and_not_mem_of_not_mem_cons h
    simp [indexFrom, hc.symm, ih hcs]

theorem fromSym_of_mem {a : Alphabet} {b : Byte} (h : b ∈ rom a) : fromSym a b = (rom a).idxOf b := by
  simp [fromSym, indexFrom_of_mem h]

theorem fromSym_of_notMem {a : Alphabet} {b : Byte} (h : b ∉ rom a) : fromSym a b = 0 := by
  simp [fromSym, indexFrom_of_notMem h]

theorem fromSym_toSym {a : Alphabet} {i : Nat} (h : i < alphabetSize a) : fromSym a (toSym a i) = i := by
  rw [fromSym_of_mem ((mem_rom_iff a _).mpr ⟨i, h, rfl⟩), toSym_eq_getElem h]
  exact (rom_nodup a).idxOf_getElem i _

/-- PAD, the control bytes and the bytes 0x80 to 0xFF stand in no alphabet. -/
theorem symbol_is_printable_and_not_pad {a : Alphabet} {b : Byte} (h : b ∈ rom a) :
    b ≠ 0x3D ∧ 0x20 ≤ b.toNat ∧ b.toNat < 0x7F := by
  revert b
  cases a <;> decide

end Sys2Proof.Machine

/-! ## The statement on FromSym -/
namespace Sys2Proof.Proofs

open Sys2Proof.Machine

/-- Settles O28: the symbols are all different (`fromSym_toSym`), and the bytes of the last clause are none of them. -/
theorem fromSymIsTheTotalInverse : Obligations.FromSymIsTheTotalInverse := by
  intro a b
  have no_symbol_iff : (∀ i, i < alphabetSize a → toSym a i ≠ b) ↔ b ∉ rom a := by simp [mem_rom_iff]
  rw [no_symbol_iff]
  refine ⟨fun i hi hb => hb ▸ fromSym_toSym hi, fromSym_of_notMem, fun hkind => ?_⟩
  have hb : b ∉ rom a := fun hmem => by
    obtain ⟨hpad, hlow, hhigh⟩ := symbol_is_printable_and_not_pad hmem
    rcases hkind with h | h | h | h
    · exact hpad h
    · omega
    · omega
    · simp [h] at hhigh
  exact ⟨hb, fromSym_of_notMem hb⟩

end Sys2Proof.Proofs

/-! ## Fields of a bit string (R9, R68) -/
namespace Sys2Proof.Machine

theorem concatFields_range_succ (width n : Nat) (f : Nat → Nat) :
    concatFields width ((List.range (n + 1)).map f) = concatFields width ((List.range n).map f) * 2 ^ width + f n := by
  simp [concatFields, List.range_succ]

/-- Fields that are zero from the `m`-th on leave the low bits of the string zero. -/
theorem pow_dvd_concatFields {f : Nat → Nat} {m : Nat} (hf : ∀ k, m ≤ k → f k = 0) (width n : Nat) :
    2 ^ (width * (n - m)) ∣ concatFields width ((List.range n).map f) := by
  induction n with
  | zero => simp
  | succ n ih =>
    rcases Nat.lt_or_ge n m with hn | hn
    · rw [Nat.sub_eq_zero_of_le hn]
      exact one_dvd _
    · rw [concatFields_range_succ, hf n hn, Nat.succ_sub hn, Nat.mul_succ, pow_add]
      exact Nat.mul_dvd_mul_right ih _

theorem fieldFromTop_eq_zero_of_dvd {total width j v : Nat} (hj : width * (j + 1) ≤ total)
    (hv : 2 ^ (total - width * j) ∣ v) : fieldFromTop total width j v = 0 := by
  have hsplit : total - width * j = total - width * (j + 1) + width := by
    rw [Nat.mul_succ] at hj ⊢
    omega
  rw [hsplit, pow_add] at hv
  exact Nat.mod_eq_zero_of_dvd (Nat.dvd_div_of_mul_dvd hv)

end Sys2Proof.Machine

/-! ## Lengths of the transcoder (R150, R153, R160) -/
namespace Sys2Proof.Machine

theorem ceilDiv_le_iff {b : Nat} (hb : 0 < b) (a c : Nat) : ceilDiv a b ≤ c ↔ a ≤ b * c := by
  rw [ceilDiv, ← Nat.ceilDiv_eq_add_pred_div, ceilDiv_le_iff_le_mul hb]

theorem ceilDiv_mul_add {b : Nat} (hb : 0 < b) (q a : Nat) : ceilDiv (b * q + a) b = q + ceilDiv a b := by
  rw [ceilDiv, ceilDiv, Nat.add_assoc, Nat.add_sub_assoc (by omega), Nat.mul_add_div hb]

/-- In both families a group holds as many bits in its symbols as in its bytes (R150). -/
theorem bits_mul_gs_of_uses {a : Alphabet} {fam : Family} (h : Spec.Uses a fam) :
    0 < fam.bits ∧ 0 < fam.gs ∧ fam.bits * fam.gs = 8 * fam.gb := by
  rcases h with ⟨-, rfl⟩ | ⟨-, rfl⟩ <;> decide

theorem dataSymbols_le_iff {fam : Family} (hbits : 0 < fam.bits) (n p : Nat) :
    dataSymbols fam n ≤ p ↔ 8 * n ≤ fam.bits * p :=
  ceilDiv_le_iff hbits (8 * n) p

theorem dataSymbols_le_encLen {fam : Family} (hgs : 0 < fam.gs) (n : Nat) : dataSymbols fam n ≤ encLen fam n :=
  (ceilDiv_le_iff hgs _ _).mp le_rfl

theorem dataSymbols_sixBit (n : Nat) : dataSymbols sixBit n = (8 * n + 5) / 6 := rfl

theorem dataSymbols_fiveBit (n : Nat) : dataSymbols fiveBit n = (8 * n + 4) / 5 := rfl

theorem encLen_sixBit (n : Nat) : encLen sixBit n = 4 * ((n + 2) / 3) := by
  change 4 * ((dataSymbols sixBit n + 3) / 4) = _
  rw [dataSymbols_sixBit]
  omega

theorem encLen_fiveBit (n : Nat) : encLen fiveBit n = 8 * ((n + 4) / 5) := by
  change 8 * ((dataSymbols fiveBit n + 7) / 8) = _
  rw [dataSymbols_fiveBit]
  omega

@[simp] theorem encodeBytes_length (fam : Family) (a : Alphabet) (s : List Byte) :
    (encodeBytes fam a s).length = encLen fam s.length := by
  simp [encodeBytes]

@[simp] theorem decodeBytes_length (fam : Family) (a : Alphabet) (s : List Byte) :
    (decodeBytes fam a s).length = decLen fam s := by
  simp [decodeBytes]

theorem firstPad_eq_idxOf (s : List Byte) : firstPad s = s.idxOf pad := by
  unfold firstPad
  by_cases h : pad ∈ s
  · simp [indexFrom_of_mem h]
  · simp [indexFrom_of_notMem h, List.idxOf_eq_length h]

theorem getElem?_ne_pad_of_lt_firstPad {s : List Byte} {k : Nat} (h : k < firstPad s) : s[k]? ≠ some pad := by
  rw [firstPad_eq_idxOf] at h
  intro hk
  obtain ⟨_, hpad⟩ := List.getElem?_eq_some_iff.mp hk
  have hne : (s[k] == pad) = false := List.not_of_lt_findIdx h
  simp [hpad] at hne

theorem getElem?_firstPad {s : List Byte} (h : firstPad s < s.length) : s[firstPad s]? = some pad := by
  rw [firstPad_eq_idxOf] at h ⊢
  rw [List.getElem?_eq_getElem h, List.getElem_idxOf h]

theorem firstPad_le_length (s : List Byte) : firstPad s ≤ s.length :=
  firstPad_eq_idxOf s ▸ List.idxOf_le_length

end Sys2Proof.Machine

/-! ## The symbols and the pads of the encoded output (R152, R154) -/
namespace Sys2Proof.Machine

theorem encodeBytes_getElem? (fam : Family) (a : Alphabet) {s : List Byte} {p : Nat} (hp : p < encLen fam s.length) :
    (encodeBytes fam a s)[p]? =
      some (if p < dataSymbols fam s.length then toSym a (symbolIndex fam s (p / fam.gs) (p % fam.gs)) else pad) := by
  simp [encodeBytes, hp]

/-- Group `g` holds `s.length - gb * g` of the input's bytes, and the bits below them are zero-fill. -/
theorem pow_dvd_packGroup (fam : Family) (s : List Byte) (g : Nat) :
    2 ^ (8 * (fam.gb - (s.length - fam.gb * g))) ∣ packGroup fam s g := by
  refine pow_dvd_concatFields (fun k hk => ?_) 8 fam.gb
  rw [List.getD_eq_default _ _ (by omega)]
  rfl

/-- A symbol that starts at or after the input's last bit is all zero-fill. -/
theorem symbolIndex_eq_zero {fam : Family} (hfam : fam.bits * fam.gs = 8 * fam.gb) {s : List Byte} {g j : Nat}
    (hj : j < fam.gs) (hend : 8 * s.length ≤ fam.bits * (fam.gs * g + j)) : symbolIndex fam s g j = 0 := by
  have hgroup : fam.bits * (fam.gs * g + j) = 8 * (fam.gb * g) + fam.bits * j := by
    rw [Nat.mul_add, ← Nat.mul_assoc, hfam, Nat.mul_assoc]
  refine fieldFromTop_eq_zero_of_dvd (hfam ▸ Nat.mul_le_mul_left _ hj) ?_
  exact (Nat.pow_dvd_pow 2 (by omega)).trans (pow_dvd_packGroup fam s g)

/-- The number of pads depends on the bytes of the last group only. -/
theorem pads_eq_pads_mod {fam : Family} (hbits : 0 < fam.bits) (hgs : 0 < fam.gs) (hfam : fam.bits * fam.gs = 8 * fam.gb)
    (n : Nat) :
    encLen fam n - dataSymbols fam n = encLen fam (n % fam.gb) - dataSymbols fam (n % fam.gb) := by
  have hnd : dataSymbols fam n = fam.gs * (n / fam.gb) + dataSymbols fam (n % fam.gb) := by
    have hbytes : 8 * n = fam.bits * (fam.gs * (n / fam.gb)) + 8 * (n % fam.gb) := by
      rw [← Nat.mul_assoc, hfam, Nat.mul_assoc, ← Nat.mul_add, Nat.div_add_mod]
    rw [dataSymbols, hbytes, ceilDiv_mul_add hbits, ← dataSymbols]
  rw [encLen, hnd, ceilDiv_mul_add hgs, Nat.mul_add, Nat.add_sub_add_left, ← encLen]

theorem pads_sixBit (n : Nat) : encLen sixBit n - dataSymbols sixBit n = [0, 2, 1].getD (n % 3) 0 := by
  have table : ∀ r < 3, encLen sixBit r - dataSymbols sixBit r = [0, 2, 1].getD r 0 := by decide
  exact (pads_eq_pads_mod (by decide) (by decide) rfl n).trans (table _ (Nat.mod_lt n (by decide)))

theorem pads_fiveBit (n : Nat) : encLen fiveBit n - dataSymbols fiveBit n = [0, 6, 4, 3, 1].getD (n % 5) 0 := by
  have table : ∀ r < 5, encLen fiveBit r - dataSymbols fiveBit r = [0, 6, 4, 3, 1].getD r 0 := by decide
  exact (pads_eq_pads_mod (by decide) (by decide) rfl n).trans (table _ (Nat.mod_lt n (by decide)))

end Sys2Proof.Machine

/-! ## The statements on the transcoder's lengths and pads -/
namespace Sys2Proof.Proofs

open Sys2Proof.Machine

/-- Settles O34: a position holds PAD exactly when it starts past the input's last bit (`dataSymbols_le_iff`), where the
group is zero-fill (`symbolIndex_eq_zero`). -/
theorem encodedOutputIsSymbolsThenPads : Obligations.EncodedOutputIsSymbolsThenPads := by
  intro fam a s huses
  obtain ⟨hbits, hgs, hgroup⟩ := bits_mul_gs_of_uses huses
  refine ⟨encodeBytes_length fam a s, fun p hp => ?_, fun p hnd hp => ⟨?_, ?_⟩, dataSymbols_le_iff hbits _,
    fun hfam => hfam ▸ pads_sixBit _, fun hfam => hfam ▸ pads_fiveBit _⟩
  · rw [encodeBytes_getElem? fam a (hp.trans_le (dataSymbols_le_encLen hgs _)), if_pos hp]
  · rw [encodeBytes_getElem? fam a hp, if_neg (Nat.not_lt.mpr hnd), pad]
  · refine symbolIndex_eq_zero hgroup (Nat.mod_lt p hgs) ?_
    rw [Nat.div_add_mod]
    exact (dataSymbols_le_iff hbits _ p).mp hnd

/-- Settles O37: the index is `firstPad`, which is the library's `List.idxOf` of PAD. -/
theorem firstPadFixesTheDecodedLength : Obligations.FirstPadFixesTheDecodedLength := fun a s =>
  ⟨firstPad s, firstPad_le_length s, fun _ => getElem?_ne_pad_of_lt_firstPad, getElem?_firstPad,
    decodeBytes_length sixBit a s, decodeBytes_length fiveBit a s⟩

/-- Settles O33: ceil(ceil(8n / bits) / gs) = ceil(n / gb) in both families (`encLen_sixBit`, `encLen_fiveBit`). -/
theorem encodedLengthIsRoundedUpToTheGroup : Obligations.EncodedLengthIsRoundedUpToTheGroup := fun n =>
  ⟨dataSymbols_sixBit n, encLen_sixBit n, encLen_sixBit n, dataSymbols_fiveBit n, encLen_fiveBit n, encLen_fiveBit n⟩

end Sys2Proof.Proofs

/-! ## The scan takes one well-formed sequence at a time (R191 to R195) -/
namespace Sys2Proof.Machine

/-- The bounds, both included, of the bytes that lead a sequence of class `k` (R191). -/
def leadBounds : LeadClass → Nat × Nat
  | .single => (0x00, 0x7F)
  | .multi .c1 => (0xC2, 0xDF)
  | .multi .c2 => (0xE0, 0xE0)
  | .multi .c3 => (0xE1, 0xEC)
  | .multi .c4 => (0xED, 0xED)
  | .multi .c5 => (0xEE, 0xEF)
  | .multi .c6 => (0xF0, 0xF0)
  | .multi .c7 => (0xF1, 0xF3)
  | .multi .c8 => (0xF4, 0xF4)

theorem inRange_iff {lo hi : Nat} {b : Byte} : inRange lo hi b = true ↔ lo ≤ b.toNat ∧ b.toNat ≤ hi := decide_eq_true_iff

theorem leadClass_eq_some_iff {b : Byte} {k : LeadClass} :
    leadClass b = some k ↔ (leadBounds k).1 ≤ b.toNat ∧ b.toNat ≤ (leadBounds k).2 := by
  constructor
  · intro h
    unfold leadClass at h
    split_ifs at h <;> cases h <;> exact inRange_iff.mp ‹_›
  · rintro ⟨hlo, hhi⟩
    rcases k with _ | (_ | _ | _ | _ | _ | _ | _ | _) <;> simp only [leadBounds] at hlo hhi <;>
      simp (disch := omega) only [leadClass, inRange_iff, if_pos, if_neg]

theorem exists_leadClass {p : LeadClass → Prop} :
    (∃ k, p k) ↔ p .single ∨ p (.multi .c1) ∨ p (.multi .c2) ∨ p (.multi .c3) ∨ p (.multi .c4) ∨ p (.multi .c5) ∨
      p (.multi .c6) ∨ p (.multi .c7) ∨ p (.multi .c8) := by
  constructor
  · rintro ⟨_ | (_ | _ | _ | _ | _ | _ | _ | _), h⟩ <;> simp [h]
  · rintro (h | h | h | h | h | h | h | h | h) <;> exact ⟨_, h⟩

/-- The nine shapes, read by the leading byte: its class fixes the length and the ranges of the bytes after it. The proof
compares the two readings for each number of bytes after the leading one, of which four are too many. -/
theorem isSequence_cons_iff {b : Byte} {rest : List Byte} :
    Spec.IsSequence (b :: rest) ↔
      ∃ k, leadClass b = some k ∧ rest.length + 1 = seqLen k ∧ restOk k rest = true := by
  rw [exists_leadClass]
  rcases rest with _ | ⟨c, _ | ⟨d, _ | ⟨e, _ | ⟨f, rest⟩⟩⟩⟩ <;>
    simp [Spec.IsSequence, leadClass_eq_some_iff, leadBounds, seqLen, restOk, lo2, hi2, isContinuation, inRange_iff]
  all_goals omega

theorem not_isSequence_nil : ¬Spec.IsSequence [] := id

/-- One iteration of R195. -/
theorem scan_succ_cons (fuel : Nat) (b : Byte) (rest : List Byte) :
    scan (fuel + 1) (b :: rest) = true ↔
      ∃ k, leadClass b = some k ∧ seqLen k ≤ rest.length + 1 ∧ restOk k (rest.take (seqLen k - 1)) = true ∧
        scan fuel (rest.drop (seqLen k - 1)) = true := by
  rw [scan]
  cases leadClass b <;> simp

theorem seqLen_pos (k : LeadClass) : 0 < seqLen k := by
  rcases k with _ | (_ | _ | _ | _ | _ | _ | _ | _) <;> decide

/-- An iteration steps over a sequence at the beginning. -/
theorem scan_append_of_isSequence {q : List Byte} (hq : Spec.IsSequence q) (fuel : Nat) (s : List Byte) :
    scan (fuel + 1) (q ++ s) = scan fuel s := by
  cases q with
  | nil => exact (not_isSequence_nil hq).elim
  | cons b rest =>
    obtain ⟨k, hk, hlen, hok⟩ := isSequence_cons_iff.mp hq
    simp [scan, hk, hok, ← hlen]

/-- An iteration that does not reject has found a sequence at the beginning. -/
theorem exists_isSequence_append_of_scan {fuel : Nat} {b : Byte} {rest : List Byte} (h : scan (fuel + 1) (b :: rest) = true) :
    ∃ q s, Spec.IsSequence q ∧ q ++ s = b :: rest ∧ scan fuel s = true := by
  obtain ⟨k, hk, hlen, hok, hscan⟩ := (scan_succ_cons fuel b rest).mp h
  have htake : (rest.take (seqLen k - 1)).length + 1 = seqLen k := by
    have := seqLen_pos k
    rw [List.length_take]
    omega
  refine ⟨b :: rest.take (seqLen k - 1), rest.drop (seqLen k - 1), ?_, ?_, hscan⟩
  · exact isSequence_cons_iff.mpr ⟨k, hk, htake, hok⟩
  · rw [List.cons_append, List.take_append_drop]

theorem exists_sequences_of_scan {fuel : Nat} {s : List Byte} (h : scan fuel s = true) :
    ∃ qs : List (List Byte), (∀ q ∈ qs, Spec.IsSequence q) ∧ qs.flatten = s := by
  induction fuel generalizing s with
  | zero =>
    cases s with
    | nil => exact ⟨[], by simp⟩
    | cons b rest => simp [scan] at h
  | succ fuel ih =>
    cases s with
    | nil => exact ⟨[], by simp⟩
    | cons b rest =>
      obtain ⟨q, s, hq, happ, hscan⟩ := exists_isSequence_append_of_scan h
      obtain ⟨qs, hqs, hflat⟩ := ih hscan
      exact ⟨q :: qs, List.forall_mem_cons.mpr ⟨hq, hqs⟩, by rw [List.flatten_cons, hflat, happ]⟩

theorem scan_flatten {qs : List (List Byte)} (hqs : ∀ q ∈ qs, Spec.IsSequence q) {fuel : Nat}
    (hfuel : qs.flatten.length ≤ fuel) : scan fuel qs.flatten = true := by
  induction qs generalizing fuel with
  | nil => simp [scan]
  | cons q qs ih =>
    obtain ⟨hq, hrest⟩ := List.forall_mem_cons.mp hqs
    have hpos : 0 < q.length := List.length_pos_iff.mpr fun hnil => not_isSequence_nil (hnil ▸ hq)
    rw [List.flatten_cons, List.length_append] at hfuel
    obtain ⟨fuel, rfl⟩ : ∃ m, fuel = m + 1 := ⟨fuel - 1, by omega⟩
    rw [List.flatten_cons, scan_append_of_isSequence hq]
    exact ih hrest (by omega)

end Sys2Proof.Machine

/-! ## The statement on the scan -/
namespace Sys2Proof.Proofs

open Sys2Proof.Machine

/-- Settles O43: each iteration takes one sequence (`exists_isSequence_append_of_scan`), by induction on the fuel; the input's
length is fuel enough since no sequence is empty (`scan_flatten`). -/
theorem wellFormedMeansConcatenationOfSequences : Obligations.WellFormedMeansConcatenationOfSequences := by
  intro s
  constructor
  · exact exists_sequences_of_scan
  · rintro ⟨qs, hqs, rfl⟩
    exact scan_flatten hqs le_rfl

end Sys2Proof.Proofs

/-! ## A predicate command that completes (R231)

The four commands of the policy differ only in the predicate, so their completion, RESULT and frame are one lemma. -/
namespace Sys2Proof.Machine

theorem predicateResult_eq_zero_or_one (b : Bool) : predicateResult b = 0 ∨ predicateResult b = 1 := by
  cases b
  · exact .inl rfl
  · exact .inr rfl

@[simp] theorem predicateResult_eq_one_iff (b : Bool) : predicateResult b = 1 ↔ b = true := by
  cases b <;> decide

/-- A predicate command on an input within IBUF writes RESULT and nothing else but the count of its reads. -/
theorem predicateCommand_of_ready {s : State} (hs : Spec.Ready s) (p : State → List Byte → Bool) :
    predicateCommand p s = setResult (predicateResult (p (countReads s.ilen.toNat s) (inputSeq s)))
      (countReads s.ilen.toNat s) := by
  obtain ⟨hlive, hlen⟩ := hs
  rcases predicateCommand_cases p s with ⟨hf, -⟩ | ⟨-, hlong, -⟩ | ⟨-, -, e⟩
  · exact absurd (hf.symm.trans hlive) (by decide)
  · omega
  · exact e

/-- On an input within IBUF, RESULT is 1 exactly when `P` holds, for a predicate that tests `P`. -/
theorem predicateCommand_tests {s : State} (hs : Spec.Ready s) {p : State → List Byte → Bool} {P : Prop}
    (hp : p (countReads s.ilen.toNat s) (inputSeq s) = true ↔ P) :
    ∃ r : Byte,
      (.next (predicateCommand p s) : Host.Outcome State Fault Refusal) =
        .next { s with result := r, draws := s.draws + s.ilen.toNat } ∧
      (r = 0 ∨ r = 1) ∧ (r = 1 ↔ P) :=
  ⟨_, congrArg Host.Outcome.next (predicateCommand_of_ready hs p), predicateResult_eq_zero_or_one _,
    (predicateResult_eq_one_iff _).trans hp⟩

end Sys2Proof.Machine

/-! ## What the predicates of the policy test (R230, R235, R240, R241, R245) -/
namespace Sys2Proof.Machine

theorem printableAscii_iff {s : List Byte} :
    printableAscii s = true ↔ ∀ b ∈ s, 0x20 ≤ b.toNat ∧ b.toNat ≤ 0x7E := by
  simp only [printableAscii, List.all_eq_true, inRange_iff]

theorem hasSeparator_iff {s : List Byte} {c : Byte} : hasSeparator s c = true ↔ c ∈ s := by
  rw [hasSeparator, List.any_beq', List.contains_iff_mem]

theorem isHexDigit_iff {upper : Bool} {b : Byte} : isHexDigit upper b = true ↔ Spec.HexDigitByte upper b := by
  simp only [isHexDigit, Bool.or_eq_true, Bool.and_eq_true, inRange_iff, or_assoc, and_comm (b := upper = true)]

/-- The interior lies after the five bytes of the head and before the last byte. -/
theorem mem_interior_iff {s : List Byte} {b : Byte} :
    b ∈ interior s ↔ ∃ k, 5 ≤ k ∧ k + 1 < s.length ∧ s[k]? = some b := by
  simp only [interior, List.mem_iff_getElem?, List.getElem?_take, List.getElem?_drop, Option.ite_none_right_eq_some]
  constructor
  · rintro ⟨i, hi, hb⟩
    exact ⟨5 + i, by omega, by omega, hb⟩
  · rintro ⟨k, hhead, hend, hk⟩
    exact ⟨k - 5, by omega, by rwa [Nat.add_sub_cancel' hhead]⟩

/-- Condition (c) of R240, byte by byte. -/
theorem take_eq_envelopeHead_iff {s : List Byte} :
    s.take 5 = envelopeHead ↔
      s[0]? = some 0x24 ∧ s[1]? = some 0x48 ∧ s[2]? = some 0x45 ∧ s[3]? = some 0x58 ∧ s[4]? = some 0x5B := by
  rcases s with _ | ⟨a, _ | ⟨b, _ | ⟨c, _ | ⟨d, _ | ⟨e, s⟩⟩⟩⟩⟩ <;> simp [envelopeHead]

theorem interior_all_isHexDigit_iff {upper : Bool} {s : List Byte} :
    (interior s).all (isHexDigit upper) = true ↔
      ∀ k b, 5 ≤ k → k + 1 < s.length → s[k]? = some b → Spec.HexDigitByte upper b := by
  simp only [List.all_eq_true, isHexDigit_iff, mem_interior_iff]
  exact ⟨fun h k b hhead hend hk => h b ⟨k, hhead, hend, hk⟩, fun h b ⟨k, hhead, hend, hk⟩ => h k b hhead hend hk⟩

theorem hexEnvelope_iff {upper : Bool} {s : List Byte} : hexEnvelope upper s = true ↔ Spec.IsEnvelope upper s := by
  simp only [hexEnvelope, Bool.and_eq_true, decide_eq_true_eq, interior_all_isHexDigit_iff, and_assoc]
  rw [take_eq_envelopeHead_iff]
  rfl

/-- The printability test that CFG.ASCII_ONLY selects fails. -/
theorem notPrintable_iff {asciiOnly : Bool} {s : List Byte} :
    (if asciiOnly then !printableAscii s else !wellFormedUtf8 s) = true ↔
      (asciiOnly = true ∧ ¬∀ b ∈ s, 0x20 ≤ b.toNat ∧ b.toNat ≤ 0x7E) ∨
      (asciiOnly = false ∧ wellFormedUtf8 s = false) := by
  rw [← printableAscii_iff]
  cases asciiOnly <;> simp

theorem needsEscaping_iff {upper asciiOnly : Bool} {s : List Byte} {c : Byte} :
    needsEscaping upper s c asciiOnly = true ↔
      (asciiOnly = true ∧ ¬∀ b ∈ s, 0x20 ≤ b.toNat ∧ b.toNat ≤ 0x7E) ∨
      (asciiOnly = false ∧ wellFormedUtf8 s = false) ∨ c ∈ s ∨ Spec.IsEnvelope upper s := by
  rw [needsEscaping, Bool.or_eq_true, Bool.or_eq_true, notPrintable_iff, hasSeparator_iff, hexEnvelope_iff, or_assoc,
    or_assoc]

end Sys2Proof.Machine

/-! ## The statements on the escaping policy -/
namespace Sys2Proof.Proofs

open Sys2Proof.Machine

/-- Settles O48, by what the predicate tests (`printableAscii_iff`) and the completion of a predicate command. -/
theorem asciichkTestsPrintability : Obligations.AsciichkTestsPrintability := fun _ hs =>
  predicateCommand_tests hs printableAscii_iff

/-- Settles O49, by what the predicate tests (`hasSeparator_iff`): counting the reads leaves SEP.BYTE as it is. -/
theorem sepchkTestsForTheSeparator : Obligations.SepchkTestsForTheSeparator := fun _ hs =>
  predicateCommand_tests hs hasSeparator_iff

/-- Settles O50, by the five conditions one by one (`hexEnvelope_iff`). -/
theorem hexchkTestsTheEnvelopeConditions : Obligations.HexchkTestsTheEnvelopeConditions := fun _ hs =>
  predicateCommand_tests hs hexEnvelope_iff

/-- Settles O51: NEEDESC's predicate is the OR of the mode's printability fact and of what SEPCHK and HEXCHK test
(`needsEscaping_iff`). -/
theorem needescGivesTheOrOfTheThreeFacts : Obligations.NeedescGivesTheOrOfTheThreeFacts := fun _ hs =>
  predicateCommand_tests hs needsEscaping_iff

end Sys2Proof.Proofs

/-! ## The checks of a command in their order (R292)

Every statement on a fault reads off this one inversion: the conditions exclude each other, so a command's outcome is known
from them. -/
namespace Sys2Proof.Machine

/-- What command `i` makes of a state `s` whose FAULT is 0: the first of the checks (3) to (7) of R292 that fails, with the fault it
raises, or all of them pass. -/
inductive CheckedOutcome (i : Instr) (s : State) : State → Prop where
  /-- R95. -/
  | illegalAlpha (hw : i.wellFormed = false) : CheckedOutcome i s (takeFault .illegalAlpha s)
  /-- R297. -/
  | lengthFault (hi : Spec.ReadsInput i) (hlen : s.params.ibufSize < s.ilen.toNat) :
      CheckedOutcome i s (takeFault .lengthFault s)
  /-- R300. -/
  | indexRange {a : Alphabet} (hi : i = .tosym a) (harg : alphabetSize a ≤ s.arg.toNat) :
      CheckedOutcome i s (takeFault .indexRange s)
  /-- R299. -/
  | notEnvelope (hi : i = .unescape) (hlen : s.ilen.toNat ≤ s.params.ibufSize)
      (henv : hexEnvelope s.params.hexUpperOk (inputSeq s) = false) :
      CheckedOutcome i s (takeFault .notEnvelope (countReads s.ilen.toNat s))
  /-- R298; UNESCAPE has read its input for the envelope test by then. -/
  | capacityFault (hi : ¬Spec.WritesResult i) (hlen : s.ilen.toNat ≤ s.params.ibufSize)
      (henv : i = .unescape → hexEnvelope s.params.hexUpperOk (inputSeq s) = true)
      (hcap : s.params.obufSize < s.ocap.toNat ∨ s.ocap.toNat < Spec.requiredCapacity s i) :
      CheckedOutcome i s (takeFault .capacityFault (countReads (if i = .unescape then s.ilen.toNat else 0) s))
  | passed {t : State} (hw : i.wellFormed = true) (hlen : Spec.ReadsInput i → s.ilen.toNat ≤ s.params.ibufSize)
      (harg : ∀ a, i = .tosym a → s.arg.toNat < alphabetSize a)
      (henv : i = .unescape → hexEnvelope s.params.hexUpperOk (inputSeq s) = true)
      (hcap : ¬Spec.WritesResult i → Spec.Fits s (Spec.requiredCapacity s i)) (ht : t.fault = false) :
      CheckedOutcome i s t

/-- Only producing commands restrict the alphabet. -/
theorem wellFormed_of_writesResult {i : Instr} (hi : Spec.WritesResult i) : i.wellFormed = true := by
  cases i with
  | tosym | fromsym | utf8chk | asciichk | sepchk | hexchk | needesc | escape | unescape => rfl
  | b64enc | b64dec | b32enc | b32dec => exact hi.elim

theorem readsInput_of_not_writesResult {i : Instr} (hi : ¬Spec.WritesResult i) : Spec.ReadsInput i := by
  cases i with
  | tosym | fromsym => exact hi trivial
  | b64enc | b64dec | b32enc | b32dec | utf8chk | asciichk | sepchk | hexchk | needesc | escape | unescape => trivial

theorem not_readsInput_tosym (a : Alphabet) : ¬Spec.ReadsInput (.tosym a) := id

theorem not_writesResult_unescape : ¬Spec.WritesResult .unescape := id

theorem unlessFaulted_of_live {s : State} (hs : s.fault = false) (k : State → State) : unlessFaulted s k = k s := by
  simp [unlessFaulted, hs]

section
variable {i : Instr} {s : State} (hs : s.fault = false)
include hs

theorem predicateCommand_checked (hi : Spec.WritesResult i) (hr : Spec.ReadsInput i) (p : State → List Byte → Bool) :
    CheckedOutcome i s (predicateCommand p s) := by
  rcases predicateCommand_cases p s with ⟨hf, -⟩ | ⟨-, hlen, e⟩ | ⟨-, hlen, e⟩
  · exact absurd (hf.symm.trans hs) (by decide)
  · exact e ▸ .lengthFault hr hlen
  · rw [e]
    exact .passed (wellFormed_of_writesResult hi) (fun _ => hlen)
      (fun a ha => (not_readsInput_tosym a (ha ▸ hr)).elim)
      (fun hu => (not_writesResult_unescape (hu ▸ hi)).elim) (fun hn => (hn hi).elim) hs

theorem producingCommand_checked (hi : ¬Spec.WritesResult i) (hu : i ≠ .unescape) (hw : i.wellFormed = true)
    {req : Nat} (hreq : req = Spec.requiredCapacity s i) (n : Nat) (f : List Byte → List Byte) :
    CheckedOutcome i s (producingCommand req n f s) := by
  subst hreq
  have hr : Spec.ReadsInput i := readsInput_of_not_writesResult hi
  rcases producingCommand_cases (Spec.requiredCapacity s i) n f s with
    ⟨hlen, e⟩ | ⟨hlen, hcap, e⟩ | ⟨hlen, hobuf, hocap, e⟩ <;> rw [e]
  · exact .lengthFault hr hlen
  · have h := CheckedOutcome.capacityFault hi hlen (fun h => (hu h).elim) hcap
    rwa [if_neg hu] at h
  · exact .passed hw (fun _ => hlen) (fun a ha => (not_readsInput_tosym a (ha ▸ hr)).elim)
      (fun h => (hu h).elim) (fun _ => ⟨hobuf, hocap⟩) hs

/-- The shape of the grouped codecs: the alphabet check, then a producing command. -/
theorem groupedCodec_checked (hi : ¬Spec.WritesResult i) (hu : i ≠ .unescape) {size : Nat} {a : Alphabet}
    (hw : i.wellFormed = decide (alphabetSize a = size)) {req n : State → Nat} (hreq : req s = Spec.requiredCapacity s i)
    (f : List Byte → List Byte) :
    CheckedOutcome i s
      (unlessFaulted s fun s => checkAlpha size a s fun s => producingCommand (req s) (n s) f s) := by
  rw [unlessFaulted_of_live hs]
  rcases checkAlpha_cases size a s fun s => producingCommand (req s) (n s) f s with ⟨ha, e⟩ | ⟨ha, e⟩ <;> rw [e]
  · exact producingCommand_checked hs hi hu (hw.trans (decide_eq_true ha)) hreq _ _
  · exact .illegalAlpha (hw.trans (decide_eq_false ha))

theorem execTosym_checked {a : Alphabet} {t : State} (h : execTosym a s = .next t) : CheckedOutcome (.tosym a) s t := by
  obtain rfl := Host.Outcome.next.inj h
  rw [unlessFaulted_of_live hs]
  split
  next harg => exact .indexRange rfl harg
  next harg =>
    refine .passed rfl (fun hr => (not_readsInput_tosym a hr).elim) ?_ nofun (fun hn => (hn trivial).elim) hs
    rintro _ ⟨⟩
    exact Nat.lt_of_not_le harg

theorem execFromsym_checked {a : Alphabet} {t : State} (h : execFromsym a s = .next t) :
    CheckedOutcome (.fromsym a) s t := by
  obtain rfl := Host.Outcome.next.inj h
  rw [unlessFaulted_of_live hs]
  exact .passed rfl (fun hr => hr.elim) nofun nofun (fun hn => (hn trivial).elim) hs

theorem execUnescape_checked {t : State} (h : execUnescape s = .next t) : CheckedOutcome .unescape s t := by
  rcases execUnescape_cases s with
    ⟨hf, -⟩ | ⟨-, hlen, e⟩ | ⟨-, hlen, henv, e⟩ | ⟨-, hlen, henv, hcap, e⟩ | ⟨-, hlen, henv, hobuf, hocap, e⟩
  · exact absurd (hf.symm.trans hs) (by decide)
  all_goals obtain rfl := Host.Outcome.next.inj (e.symm.trans h)
  · exact .lengthFault trivial hlen
  · exact .notEnvelope rfl hlen henv
  · exact .capacityFault not_writesResult_unescape hlen (fun _ => henv) hcap
  · exact .passed rfl (fun _ => hlen) nofun (fun _ => henv) (fun _ => ⟨hobuf, hocap⟩) hs

theorem exec_checked {t : State} (h : exec i s = .next t) : CheckedOutcome i s t := by
  cases i with
  | tosym a => exact execTosym_checked hs h
  | fromsym a => exact execFromsym_checked hs h
  | unescape => exact execUnescape_checked hs h
  | utf8chk | asciichk | sepchk | hexchk | needesc =>
    obtain rfl := Host.Outcome.next.inj h
    exact predicateCommand_checked hs (by trivial) (by trivial) _
  | escape =>
    obtain rfl := Host.Outcome.next.inj h
    rw [unlessFaulted_of_live hs]
    exact producingCommand_checked (i := .escape) hs id nofun rfl rfl _ _
  | b64enc a =>
    obtain rfl := Host.Outcome.next.inj h
    exact groupedCodec_checked (i := .b64enc a) hs id nofun (by cases a <;> rfl) (encLen_sixBit _) _
  | b64dec a =>
    obtain rfl := Host.Outcome.next.inj h
    exact groupedCodec_checked (i := .b64dec a) hs id nofun (by cases a <;> rfl) rfl _
  | b32enc a =>
    obtain rfl := Host.Outcome.next.inj h
    exact groupedCodec_checked (i := .b32enc a) hs id nofun (by cases a <;> rfl) (encLen_fiveBit _) _
  | b32dec a =>
    obtain rfl := Host.Outcome.next.inj h
    exact groupedCodec_checked (i := .b32dec a) hs id nofun (by cases a <;> rfl) rfl _

end

/-- A producing command that gets as far as its capacity check: it faults there or completes. -/
theorem exec_capacity_cases {i : Instr} {s t : State} (hw : i.wellFormed = true) (hi : ¬Spec.WritesResult i)
    (hs : Spec.Ready s) (henv : i = .unescape → hexEnvelope s.params.hexUpperOk (inputSeq s) = true)
    (h : exec i s = .next t) :
    (¬Spec.Fits s (Spec.requiredCapacity s i) ∧ Spec.Faulted s t 4 (if i = .unescape then s.ilen.toNat else 0)) ∨
    (Spec.Fits s (Spec.requiredCapacity s i) ∧ t.fault = false) := by
  obtain ⟨hlive, hlen⟩ := hs
  cases exec_checked hlive h with
  | illegalAlpha hill => exact absurd hw (ne_true_of_eq_false hill)
  | lengthFault _ hlong => omega
  | indexRange htosym => exact (hi (htosym ▸ trivial)).elim
  | notEnvelope hu _ hno => exact absurd (henv hu) (ne_true_of_eq_false hno)
  | capacityFault _ _ _ hcap => exact .inl ⟨by simp only [Spec.Fits]; omega, rfl⟩
  | passed _ _ _ _ hcap ht => exact .inr ⟨hcap hi, ht⟩

theorem alphabetSize_eq (a : Alphabet) : alphabetSize a = if a = .base32 then 32 else 64 := by
  cases a <;> rfl

end Sys2Proof.Machine

/-! ## A recorded fault stays until reset (R301) -/
namespace Sys2Proof.Machine

@[simp] theorem writeReg_fault (r : Reg) (v : Word) (s : State) : (writeReg r v s).fault = s.fault := by
  cases r <;> rfl

@[simp] theorem writeReg_cause (r : Reg) (v : Word) (s : State) : (writeReg r v s).cause = s.cause := by
  cases r <;> rfl

theorem issue_of_faulted {s : State} (hs : s.fault = true) (w : Word) : issue w s = .next s := by
  simp [issue, hs]

theorem Served.keeps_fault {e : HostEvent} {s t : State} (h : Served s e t) (hs : s.fault = true) :
    (t.fault = true ∧ t.cause = s.cause) ∨ e = .platformReset := by
  cases h with
  | command _ h =>
    rw [issue_of_faulted hs] at h
    exact Host.Outcome.next.inj h ▸ .inl ⟨hs, rfl⟩
  | regWrite => exact .inl ⟨(writeReg_fault _ _ _).trans hs, writeReg_cause _ _ _⟩
  | regRead | ibufWrite | ibufRead | obufWrite | obufRead => exact .inl ⟨hs, rfl⟩
  | reset => exact .inr rfl

end Sys2Proof.Machine

/-! ## The statements on faults -/
namespace Sys2Proof.Proofs

open Sys2Proof.Machine

/-- Settles O17, by what serving an event can do: a write to CMD is ignored, and no other event but reset writes STATUS. -/
theorem onlyResetClearsTheFault : Obligations.OnlyResetClearsTheFault := by
  intro s t hs h
  rcases step_cases h with ⟨-, rfl⟩ | ⟨e, rest, hp, served⟩
  · exact .inl ⟨hs, rfl⟩
  · rcases served.keeps_fault hs with hkept | rfl
    · exact .inl hkept
    · exact .inr ⟨rest, hp⟩

/-- Settles O23: only the length check raises cause 3, and no later check is reached when it fails. -/
theorem overlongInputRaisesLengthFault : Obligations.OverlongInputRaisesLengthFault := by
  refine ⟨fun i s hw hi hs hlong => ?_, fun i s t hs hlen h hfault => ?_⟩
  · obtain ⟨t, h⟩ := exec_answers_next i s
    refine ⟨t, h, ?_⟩
    cases exec_checked hs h with
    | illegalAlpha hill => exact absurd hw (ne_true_of_eq_false hill)
    | lengthFault => rfl
    | indexRange htosym => exact (not_readsInput_tosym _ (htosym ▸ hi)).elim
    | notEnvelope _ hlen | capacityFault _ hlen => omega
    | passed _ hlen => exact absurd (hlen hi) (Nat.not_le.mpr hlong)
  · cases exec_checked hs h with
    | illegalAlpha | indexRange | notEnvelope | capacityFault => simp
    | lengthFault _ hlong => omega
    | passed _ _ _ _ _ ht => exact absurd hfault (ne_true_of_eq_false ht)

/-- Settles O24: with a legal input the capacity check is the only one left (`exec_capacity_cases`). -/
theorem illegalCapacityRaisesCapacityFault : Obligations.IllegalCapacityRaisesCapacityFault := by
  intro i s hw hi hs henv
  obtain ⟨t, h⟩ := exec_answers_next i s
  refine ⟨fun hbad => ⟨t, h, ?_⟩, fun hobuf hreq => ⟨t, h, ?_⟩⟩ <;>
    rcases exec_capacity_cases hw hi hs henv h with ⟨hnot, hfault⟩ | ⟨⟨hobuf', hreq'⟩, ht⟩
  · exact hfault
  · omega
  · exact absurd ⟨hobuf, hreq.ge⟩ hnot
  · exact ht

/-- Settles O25: UNESCAPE's envelope test comes before its capacity check. -/
theorem unescapeOfNonEnvelopeRaisesNotEnvelope : Obligations.UnescapeOfNonEnvelopeRaisesNotEnvelope := by
  rintro s ⟨hs, hlen⟩ hno
  obtain ⟨t, h⟩ := exec_answers_next .unescape s
  refine ⟨t, h, ?_⟩
  cases exec_checked hs h with
  | illegalAlpha hill => cases hill
  | lengthFault _ hlong => omega
  | indexRange htosym => cases htosym
  | notEnvelope => rfl
  | capacityFault _ _ henv | passed _ _ _ henv => exact absurd (henv rfl) (ne_true_of_eq_false hno)

/-- Settles O26: the index check is TOSYM's only one, against the size of the alphabet. -/
theorem tosymIndexBeyondAlphabetRaisesIndexRange : Obligations.TosymIndexBeyondAlphabetRaisesIndexRange := by
  intro a s hs harg
  rw [← alphabetSize_eq] at harg
  obtain ⟨t, h⟩ := exec_answers_next (.tosym a) s
  refine ⟨t, h, ?_⟩
  cases exec_checked hs h with
  | illegalAlpha hill => cases hill
  | lengthFault hr => exact (not_readsInput_tosym a hr).elim
  | indexRange => rfl
  | notEnvelope hu => cases hu
  | capacityFault hi => exact (hi trivial).elim
  | passed _ _ hlt => exact absurd harg (Nat.not_le.mpr (hlt a rfl))

end Sys2Proof.Proofs

/-! ## A command word and its fields (R90)

A word is its three fields, and `decode` reads off them a command that has exactly these fields; so decoding and encoding
agree both ways. -/
namespace Sys2Proof

/-- No bit of a word lies outside its fields. -/
theorem append_fields_eq (w : Word) : zeroField w ++ (alphaField w ++ opField w : BitVec 12) = w := by
  have hlow : (alphaField w ++ opField w : BitVec 12) = w.extractLsb' 0 12 :=
    BitVec.extractLsb'_append_extractLsb'_eq_extractLsb' (start₁ := 0) (start₂ := 8) (len₁ := 8) rfl
  rw [hlow]
  exact BitVec.extractLsb'_append_extractLsb' (w := 20) (len := 12)

theorem encode_eq_iff (i : Instr) (w : Word) :
    encode i = w ↔ zeroField w = 0 ∧ alphaField w = alphaOperand i ∧ opField w = opCode i := by
  constructor
  · rintro rfl
    simp
  · rintro ⟨hz, ha, ho⟩
    rw [← append_fields_eq w, hz, ha, ho, encode]

theorem alphabetOfCode_eq_some_iff (c : BitVec 4) (a : Alphabet) : alphabetOfCode c = some a ↔ c = alphaCode a := by
  revert c
  cases a <;> decide

theorem decodePlain_eq_command {i j : Instr} {c : BitVec 4} (h : decodePlain i c = .command j) : i = j ∧ c = 0 := by
  unfold decodePlain at h
  split at h
  next hc => exact ⟨Decoded.command.inj h, hc⟩
  next => cases h

theorem decodeWithAlpha_eq_command {mk : Alphabet → Instr} {c : BitVec 4} {j : Instr}
    (h : decodeWithAlpha mk c = .command j) : ∃ a, mk a = j ∧ j.wellFormed = true ∧ c = alphaCode a := by
  unfold decodeWithAlpha at h
  split at h
  next => cases h
  next a hc =>
    split at h
    next hw =>
      obtain rfl := Decoded.command.inj h
      exact ⟨a, rfl, hw, (alphabetOfCode_eq_some_iff c a).mp hc⟩
    next => cases h

theorem decode_encode {i : Instr} (hi : i.wellFormed = true) : decode (encode i) = .command i := by
  cases i with
  | tosym | fromsym | b64enc | b64dec | b32enc | b32dec => simp [decode, opCode, alphaOperand, decodeWithAlpha, hi]
  | utf8chk | asciichk | sepchk | hexchk | needesc | escape | unescape => simp [decode, opCode, alphaOperand, decodePlain]

section
variable {w : Word} {i : Instr}

theorem encode_of_decodePlain {j : Instr} (h : decodePlain j (alphaField w) = .command i) (hz : zeroField w = 0)
    (hop : (opField w).toNat = (opCode j).toNat) (hj : j.wellFormed = true) (hnone : alphaOperand j = 0) :
    i.wellFormed = true ∧ encode i = w := by
  obtain ⟨rfl, hc⟩ := decodePlain_eq_command h
  exact ⟨hj, (encode_eq_iff _ _).mpr ⟨hz, hc.trans hnone.symm, BitVec.eq_of_toNat_eq hop⟩⟩

theorem encode_of_decodeWithAlpha {mk : Alphabet → Instr} (h : decodeWithAlpha mk (alphaField w) = .command i)
    (hz : zeroField w = 0) (hop : ∀ a, (opField w).toNat = (opCode (mk a)).toNat)
    (hmk : ∀ a, alphaOperand (mk a) = alphaCode a) : i.wellFormed = true ∧ encode i = w := by
  obtain ⟨a, rfl, hw, hc⟩ := decodeWithAlpha_eq_command h
  exact ⟨hw, (encode_eq_iff _ _).mpr ⟨hz, hc.trans (hmk a).symm, BitVec.eq_of_toNat_eq (hop a)⟩⟩

theorem encode_of_decode (h : decode w = .command i) : i.wellFormed = true ∧ encode i = w := by
  unfold decode at h
  split at h
  next => cases h
  next hz =>
    replace hz := not_not.mp hz
    split at h
    iterate 6
      next hop => exact encode_of_decodeWithAlpha h hz (fun _ => hop) fun _ => rfl
    iterate 7
      next hop => exact encode_of_decodePlain h hz hop rfl rfl
    next => cases h

end

end Sys2Proof

/-! ## The statement on decoding and encoding -/
namespace Sys2Proof.Proofs

open Sys2Proof.Machine

/-- Settles O5: the arms of `decode` give back the fields of the word (`encode_of_decode`), and `decode` reads an encoding's
fields (`decode_encode`). -/
theorem decodeInvertsEncode : Obligations.DecodeInvertsEncode := by
  intro w i
  constructor
  · exact encode_of_decode
  · rintro ⟨hi, rfl⟩
    exact decode_encode hi

end Sys2Proof.Proofs

/-! ## What a command leaves when it completes (R36, R37)

Each command's result as a function of its state, said once: RESULT for the predicate and symbol commands, the logical output for
the producing ones. The statements on the invariant, on what results depend on and on each command's output read it off. -/
namespace Sys2Proof.Machine

/-- The byte that a predicate or symbol command leaves in RESULT. -/
def commandResult (s : State) : Instr → Byte
  | .tosym a => toSym a s.arg.toNat
  | .fromsym a => BitVec.ofNat 8 (fromSym a s.arg)
  | .utf8chk => predicateResult (wellFormedUtf8 (inputSeq s))
  | .asciichk => predicateResult (printableAscii (inputSeq s))
  | .sepchk => predicateResult (hasSeparator (inputSeq s) s.sep)
  | .hexchk => predicateResult (hexEnvelope s.params.hexUpperOk (inputSeq s))
  | .needesc => predicateResult (needsEscaping s.params.hexUpperOk (inputSeq s) s.sep s.asciiOnly)
  | .b64enc _ | .b64dec _ | .b32enc _ | .b32dec _ | .escape | .unescape => s.result

/-- The logical output of a producing command. -/
def commandOutput (s : State) : Instr → List Byte
  | .b64enc a => encodeBytes sixBit a (inputSeq s)
  | .b64dec a => decodeBytes sixBit a (inputSeq s)
  | .b32enc a => encodeBytes fiveBit a (inputSeq s)
  | .b32dec a => decodeBytes fiveBit a (inputSeq s)
  | .escape => escapeBytes (inputSeq s) s.maxlen.toNat
  | .unescape => unescapeBytes (inputSeq s)
  | .tosym _ | .fromsym _ | .utf8chk | .asciichk | .sepchk | .hexchk | .needesc => []

/-- What a producing command leaves between its output and OCAP (R336). -/
def commandTail : Instr → Tail
  | .unescape => .zeroed
  | _ => .unspec

/-- How many input bytes a command that completes has read. -/
def inputReads (s : State) : Instr → Nat
  | .tosym _ | .fromsym _ => 0
  | .escape => escapedLen s
  | _ => s.ilen.toNat

/-- The state that command `i` leaves when it completes in state `s`. -/
inductive Completed (i : Instr) (s : State) : State → Prop where
  | result (hi : Spec.WritesResult i) : Completed i s (setResult (commandResult s i) (countReads (inputReads s i) s))
  | produced (hi : ¬Spec.WritesResult i) :
      Completed i s (storeOutput (commandTail i) (commandOutput s i) (countReads (inputReads s i) s))

/-- Cutting at the input's own length first changes nothing. -/
theorem escapeBytes_eq_envelope (s : List Byte) (maxlen : Nat) : escapeBytes s maxlen = envelope (s.take maxlen) := by
  rw [escapeBytes, Nat.min_comm, ← List.take_take, List.take_length]

theorem inputSeq_take_maxlen (s : State) : (inputSeq s).take s.maxlen.toNat = inputBytes s (escapedLen s) := by
  rw [inputSeq, inputBytes_take, escapedLen, Nat.min_comm]

/-- ESCAPE reads only the bytes it keeps (R266). -/
theorem escapeBytes_inputBytes (s : State) :
    escapeBytes (inputBytes s (escapedLen s)) s.maxlen.toNat = escapeBytes (inputSeq s) s.maxlen.toNat := by
  simp only [escapeBytes_eq_envelope, inputSeq_take_maxlen, inputBytes_take]
  rw [escapedLen, Nat.min_eq_right (Nat.min_le_right _ _)]

section
variable {i : Instr} {s t : State}

theorem not_takeFault {c : Cause} (ht : (takeFault c s).fault = false) : False := by
  cases ht

theorem predicateCommand_completed (hs : s.fault = false) {p : State → List Byte → Bool}
    (ht : (predicateCommand p s).fault = false) :
    predicateCommand p s = setResult (predicateResult (p (countReads s.ilen.toNat s) (inputSeq s)))
      (countReads s.ilen.toNat s) := by
  rcases predicateCommand_cases p s with ⟨hf, -⟩ | ⟨-, -, e⟩ | ⟨-, -, e⟩
  · exact absurd (hf.symm.trans hs) (by decide)
  · exact (not_takeFault (e ▸ ht)).elim
  · exact e

theorem producingCommand_completed {req n : Nat} {f : List Byte → List Byte}
    (ht : (producingCommand req n f s).fault = false) :
    producingCommand req n f s = storeOutput .unspec (f (inputBytes s n)) (countReads n s) := by
  rcases producingCommand_cases req n f s with ⟨-, e⟩ | ⟨-, -, e⟩ | ⟨-, -, -, e⟩
  · exact (not_takeFault (e ▸ ht)).elim
  · exact (not_takeFault (e ▸ ht)).elim
  · exact e

theorem groupedCodec_completed (hs : s.fault = false) {size : Nat} {a : Alphabet} {req n : State → Nat}
    {f : List Byte → List Byte}
    (ht : (unlessFaulted s fun s => checkAlpha size a s fun s => producingCommand (req s) (n s) f s).fault = false) :
    (unlessFaulted s fun s => checkAlpha size a s fun s => producingCommand (req s) (n s) f s) =
      storeOutput .unspec (f (inputBytes s (n s))) (countReads (n s) s) := by
  rw [unlessFaulted_of_live hs] at ht ⊢
  rcases checkAlpha_cases size a s fun s => producingCommand (req s) (n s) f s with ⟨-, e⟩ | ⟨-, e⟩ <;> rw [e] at ht ⊢
  · exact producingCommand_completed ht
  · exact (not_takeFault ht).elim

theorem execTosym_completed (hs : s.fault = false) {a : Alphabet} (h : execTosym a s = .next t) (ht : t.fault = false) :
    t = setResult (toSym a s.arg.toNat) s := by
  obtain rfl := Host.Outcome.next.inj h
  rw [unlessFaulted_of_live hs] at ht ⊢
  split at ht
  · exact (not_takeFault ht).elim
  · exact if_neg ‹_›

theorem execUnescape_completed (hs : s.fault = false) (h : execUnescape s = .next t) (ht : t.fault = false) :
    t = storeOutput .zeroed (unescapeBytes (inputSeq s)) (countReads s.ilen.toNat s) := by
  rcases execUnescape_cases s with ⟨hf, -⟩ | ⟨-, -, e⟩ | ⟨-, -, -, e⟩ | ⟨-, -, -, -, e⟩ | ⟨-, -, -, -, -, e⟩
  · exact absurd (hf.symm.trans hs) (by decide)
  all_goals obtain rfl := Host.Outcome.next.inj (e.symm.trans h)
  · exact (not_takeFault ht).elim
  · exact (not_takeFault ht).elim
  · exact (not_takeFault ht).elim
  · rfl

theorem exec_completed (hs : s.fault = false) (h : exec i s = .next t) (ht : t.fault = false) : Completed i s t := by
  cases i with
  | tosym a => exact execTosym_completed hs h ht ▸ Completed.result (i := .tosym a) trivial
  | fromsym a =>
    obtain rfl := Host.Outcome.next.inj h
    exact unlessFaulted_of_live hs _ ▸ Completed.result (i := .fromsym a) trivial
  | unescape => exact execUnescape_completed hs h ht ▸ Completed.produced not_writesResult_unescape
  | escape =>
    obtain rfl := Host.Outcome.next.inj h
    rw [unlessFaulted_of_live hs] at ht ⊢
    rw [producingCommand_completed ht, escapeBytes_inputBytes]
    exact .produced (i := .escape) id
  | utf8chk | asciichk | sepchk | hexchk | needesc =>
    obtain rfl := Host.Outcome.next.inj h
    rw [predicateCommand_completed hs ht]
    exact .result (by trivial)
  | b64enc a | b64dec a | b32enc a | b32dec a =>
    obtain rfl := Host.Outcome.next.inj h
    exact (groupedCodec_completed hs ht).symm ▸ Completed.produced (by exact id)

/-- While FAULT is 1 no meaning has an effect (R294). -/
theorem exec_of_faulted (hs : s.fault = true) (i : Instr) : exec i s = .next s := by
  obtain ⟨t, h⟩ := exec_answers_next i s
  cases exec_outcome h with
  | ignored => exact h
  | faulted hf | result hf | produced hf => exact absurd (hs.symm.trans hf) (by decide)

end

end Sys2Proof.Machine

/-! ## The lengths of the outputs (R153, R160, R260, R270) -/
namespace Sys2Proof.Machine

@[simp] theorem inputSeq_length (s : State) : (inputSeq s).length = s.ilen.toNat := inputBytes_length s _

theorem hexPairs_length (p : List Byte) : (p.flatMap hexPair).length = 2 * p.length := by
  induction p with
  | nil => rfl
  | cons b p ih =>
    rw [List.flatMap_cons, List.length_append, ih, List.length_cons, Nat.mul_succ, Nat.add_comm]
    rfl

@[simp] theorem envelope_length (p : List Byte) : (envelope p).length = 6 + 2 * p.length := by
  rw [envelope, List.length_append, List.length_append, hexPairs_length]
  simp only [envelopeHead, List.length_cons, List.length_nil]
  omega

@[simp] theorem unescapeBytes_length (e : List Byte) : (unescapeBytes e).length = (e.length - 6) / 2 := by
  simp [unescapeBytes]

/-- A symbol holds fewer bits than a byte, so a decoded text is no longer than its input. -/
theorem decLen_le_length {fam : Family} (hbits : fam.bits ≤ 8) (s : List Byte) : decLen fam s ≤ s.length :=
  calc firstPad s * fam.bits / 8 ≤ firstPad s * 8 / 8 := Nat.div_le_div_right (Nat.mul_le_mul_left _ hbits)
    _ = firstPad s := Nat.mul_div_cancel _ (by decide)
    _ ≤ s.length := firstPad_le_length s

/-- Req of R298 is room enough for the output. -/
theorem commandOutput_length_le (i : Instr) (s : State) : (commandOutput s i).length ≤ Spec.requiredCapacity s i := by
  cases i with
  | b64enc a => simp [commandOutput, Spec.requiredCapacity, encLen_sixBit]
  | b32enc a => simp [commandOutput, Spec.requiredCapacity, encLen_fiveBit]
  | b64dec a | b32dec a =>
    simpa [commandOutput, Spec.requiredCapacity] using decLen_le_length (by decide) (inputSeq s)
  | escape => simp [commandOutput, Spec.requiredCapacity, escapeBytes_eq_envelope, Nat.min_comm]
  | unescape => simp [commandOutput, Spec.requiredCapacity]
  | tosym | fromsym | utf8chk | asciichk | sepchk | hexchk | needesc => exact Nat.zero_le _

end Sys2Proof.Machine

/-! ## What RESULT can hold (R32) -/
namespace Sys2Proof.Machine

theorem toSym_mem_allSymbols {a : Alphabet} {i : Nat} (hi : i < alphabetSize a) : toSym a i ∈ allSymbols := by
  have hmem : toSym a i ∈ rom a := (mem_rom_iff a _).mpr ⟨i, hi, rfl⟩
  refine List.mem_flatMap.mpr ⟨a, ?_, hmem⟩
  cases a <;> decide

theorem alphabetSize_pos (a : Alphabet) : 0 < alphabetSize a := by cases a <;> decide

theorem alphabetSize_le (a : Alphabet) : alphabetSize a ≤ 64 := by cases a <;> decide

theorem fromSym_lt (a : Alphabet) (b : Byte) : fromSym a b < alphabetSize a := by
  by_cases h : b ∈ rom a
  · rw [fromSym_of_mem h, ← rom_length]
    exact List.idxOf_lt_length_of_mem h
  · exact fromSym_of_notMem h ▸ alphabetSize_pos a

/-- An index fits in RESULT (R138). -/
theorem fromSym_toNat (a : Alphabet) (b : Byte) : (BitVec.ofNat 8 (fromSym a b)).toNat = fromSym a b := by
  have := fromSym_lt a b
  have := alphabetSize_le a
  rw [BitVec.toNat_ofNat, Nat.mod_eq_of_lt (by omega)]

theorem predicateResult_lt (b : Bool) : (predicateResult b).toNat < 64 := by cases b <;> decide

theorem commandResult_legal {i : Instr} {s : State} (hi : Spec.WritesResult i)
    (harg : ∀ a, i = .tosym a → s.arg.toNat < alphabetSize a) :
    (commandResult s i).toNat < 64 ∨ commandResult s i ∈ allSymbols := by
  cases i with
  | tosym a => exact .inr (toSym_mem_allSymbols (harg a rfl))
  | fromsym a =>
    left
    rw [commandResult, fromSym_toNat]
    exact (fromSym_lt a _).trans_le (alphabetSize_le a)
  | utf8chk | asciichk | sepchk | hexchk | needesc => exact .inl (predicateResult_lt _)
  | b64enc | b64dec | b32enc | b32dec | escape | unescape => exact hi.elim

end Sys2Proof.Machine

/-! ## Every event keeps the invariant (R24, R27, R32, R40, R41) -/
namespace Sys2Proof.Machine

/-- Codes 7 to 15 are never raised (R291). -/
theorem causeCode_range (c : Cause) : 1 ≤ (causeCode c).toNat ∧ (causeCode c).toNat ≤ 6 := by cases c <;> decide

section
variable {s t : State} (h : s.Inv)
include h

theorem takeFault_keeps_inv (c : Cause) (n : Nat) : (takeFault c (countReads n s)).Inv := by
  obtain ⟨hparams, -, hbuffers, holen, hresult⟩ := h
  exact ⟨hparams, ⟨nofun, fun _ => causeCode_range c⟩, hbuffers, holen, hresult⟩

theorem setResult_keeps_inv {b : Byte} (hb : b.toNat < 64 ∨ b ∈ allSymbols) (n : Nat) :
    (setResult b (countReads n s)).Inv := by
  obtain ⟨hparams, hstatus, hbuffers, holen, -⟩ := h
  exact ⟨hparams, hstatus, hbuffers, holen, hb⟩

theorem storeOutput_keeps_inv {out : List Byte} (hcap : s.ocap.toNat ≤ s.params.obufSize)
    (hout : out.length ≤ s.ocap.toNat) (tail : Tail) (n : Nat) : (storeOutput tail out (countReads n s)).Inv := by
  obtain ⟨hparams, hstatus, ⟨hiwf, hibelow, howf, hobelow⟩, -, hresult⟩ := h
  refine ⟨hparams, hstatus, ⟨hiwf, hibelow, overwrite_keeps_wf _ _ _ howf, overwrite_keeps_below _ _ _ _ hobelow hcap⟩, ?_,
    hresult⟩
  calc (BitVec.ofNat 32 out.length).toNat ≤ out.length := Nat.mod_le _ _
    _ ≤ s.params.obufSize := hout.trans hcap

theorem completed_keeps_inv {i : Instr} (hc : Completed i s t)
    (harg : ∀ a, i = .tosym a → s.arg.toNat < alphabetSize a)
    (hcap : ¬Spec.WritesResult i → Spec.Fits s (Spec.requiredCapacity s i)) : t.Inv := by
  cases hc with
  | result hi => exact setResult_keeps_inv h (commandResult_legal hi harg) _
  | produced hi =>
    obtain ⟨hobuf, hreq⟩ := hcap hi
    exact storeOutput_keeps_inv h hobuf ((commandOutput_length_le i s).trans hreq) _ _

theorem exec_keeps_inv {i : Instr} (he : exec i s = .next t) : t.Inv := by
  cases hf : s.fault with
  | true => exact Host.Outcome.next.inj ((exec_of_faulted hf i).symm.trans he) ▸ h
  | false =>
    cases exec_checked hf he with
    | illegalAlpha | lengthFault | indexRange => exact takeFault_keeps_inv h _ 0
    | notEnvelope | capacityFault => exact takeFault_keeps_inv h _ _
    | passed _ _ harg _ hcap ht => exact completed_keeps_inv h (exec_completed hf he ht) harg hcap

theorem issue_keeps_inv {w : Word} (hw : issue w s = .next t) : t.Inv := by
  rcases issue_cases w s with ⟨-, e⟩ | ⟨i, -, -, e⟩ | ⟨-, -, e⟩ | ⟨-, -, e⟩ <;> rw [e] at hw
  · exact Host.Outcome.next.inj hw ▸ h
  · exact exec_keeps_inv h hw
  · exact Host.Outcome.next.inj hw ▸ takeFault_keeps_inv h _ 0
  · exact Host.Outcome.next.inj hw ▸ takeFault_keeps_inv h _ 0

/-- No host write to a register reaches STATUS, OLEN, RESULT or a parameter. -/
theorem writeReg_keeps_inv (r : Reg) (v : Word) : (writeReg r v s).Inv := by
  cases r <;> exact h

end

theorem resetWith_inv {p : Params} (hp : p.Valid) : (State.resetWith p).Inv :=
  ⟨hp, ⟨fun _ => rfl, nofun⟩, ⟨wf_nil, nofun, wf_nil, nofun⟩, Nat.zero_le _, .inl (by simp)⟩

theorem Served.keeps_inv {e : HostEvent} {s t : State} (hs : Served s e t) (h : s.Inv) : t.Inv := by
  cases hs with
  | command _ hw => exact issue_keeps_inv h hw
  | regWrite => exact writeReg_keeps_inv h _ _
  | regRead | ibufRead | obufRead => exact h
  | ibufWrite ha b =>
    obtain ⟨hparams, hstatus, ⟨hiwf, hibelow, hobuf⟩, hrest⟩ := h
    exact ⟨hparams, hstatus, ⟨write_keeps_wf _ _ _ hiwf, write_keeps_below _ _ _ _ hibelow ha, hobuf⟩, hrest⟩
  | obufWrite ha b =>
    obtain ⟨hparams, hstatus, ⟨hiwf, hibelow, howf, hobelow⟩, hrest⟩ := h
    exact ⟨hparams, hstatus,
      ⟨hiwf, hibelow, write_keeps_wf _ _ _ howf, write_keeps_below _ _ _ _ hobelow ha⟩, hrest⟩
  | reset =>
    obtain ⟨hparams, -⟩ := h
    exact resetWith_inv hparams

end Sys2Proof.Machine

/-! ## The statements on the invariant -/
namespace Sys2Proof.Proofs

open Sys2Proof.Machine

/-- Settles O18: the machine at hand meets R6 (`Config.params_valid`). -/
theorem resetStateMeetsTheInvariant : Obligations.ResetStateMeetsTheInvariant :=
  resetWith_inv Config.params_valid

/-- Settles O19, by what serving an event can do; a command that completes has passed the checks that bound its output and its
index (`completed_keeps_inv`). -/
theorem everyStepKeepsTheInvariant : Obligations.EveryStepKeepsTheInvariant := by
  intro s t h hstep
  rcases step_cases hstep with ⟨-, rfl⟩ | ⟨e, rest, -, hs⟩
  · exact h
  · exact hs.keeps_inv h

end Sys2Proof.Proofs

/-! ## The fault that a command reports (R291, R292) -/
namespace Sys2Proof.Machine

section
variable {i : Instr} {s t : State}

theorem verdict_of_overlong (hi : Spec.ReadsInput i) (hlen : s.params.ibufSize < s.ilen.toNat) :
    Spec.verdict s i = 3 := by
  cases i with
  | tosym | fromsym => exact hi.elim
  | b64enc | b64dec | b32enc | b32dec | utf8chk | asciichk | sepchk | hexchk | needesc | escape | unescape =>
    exact if_pos hlen

theorem verdict_tosym (a : Alphabet) (s : State) :
    Spec.verdict s (.tosym a) = if alphabetSize a ≤ s.arg.toNat then 6 else 0 := by
  cases a <;> rfl

/-- A producing command whose input is legal is judged by its capacity check. -/
theorem verdict_of_producing (hi : ¬Spec.WritesResult i) (hlen : s.ilen.toNat ≤ s.params.ibufSize)
    (henv : i = .unescape → hexEnvelope s.params.hexUpperOk (inputSeq s) = true) :
    Spec.verdict s i =
      if s.params.obufSize < s.ocap.toNat ∨ s.ocap.toNat < Spec.requiredCapacity s i then 4 else 0 := by
  have hlong := Nat.not_lt.mpr hlen
  cases i with
  | tosym | fromsym | utf8chk | asciichk | sepchk | hexchk | needesc => exact (hi trivial).elim
  | b64enc | b64dec | b32enc | b32dec | escape => exact if_neg hlong
  | unescape => exact (if_neg hlong).trans (if_neg (by simp [henv]))

theorem verdict_of_passed (hlen : Spec.ReadsInput i → s.ilen.toNat ≤ s.params.ibufSize)
    (harg : ∀ a, i = .tosym a → s.arg.toNat < alphabetSize a)
    (henv : i = .unescape → hexEnvelope s.params.hexUpperOk (inputSeq s) = true)
    (hcap : ¬Spec.WritesResult i → Spec.Fits s (Spec.requiredCapacity s i)) : Spec.verdict s i = 0 := by
  cases i with
  | tosym a => rw [verdict_tosym, if_neg (Nat.not_le.mpr (harg a rfl))]
  | fromsym => rfl
  | utf8chk | asciichk | sepchk | hexchk | needesc => exact if_neg (Nat.not_lt.mpr (hlen (by trivial)))
  | b64enc | b64dec | b32enc | b32dec | escape | unescape =>
    obtain ⟨hobuf, hreq⟩ := hcap id
    rw [verdict_of_producing id (hlen (by trivial)) henv, if_neg (by omega)]

theorem exec_verdict (hw : i.wellFormed = true) (hs : s.fault = false) (h : exec i s = .next t) :
    (Spec.verdict s i = 0 ∧ t.fault = false) ∨
      (Spec.verdict s i ≠ 0 ∧ t.fault = true ∧ t.cause = Spec.verdict s i) := by
  cases exec_checked hs h with
  | illegalAlpha hill => exact absurd hw (ne_true_of_eq_false hill)
  | lengthFault hi hlong => simp [verdict_of_overlong hi hlong]
  | indexRange hi harg => subst hi; simp [verdict_tosym, harg]
  | notEnvelope hi hlen hno =>
    subst hi
    have hv : Spec.verdict s .unescape = 5 := (if_neg (Nat.not_lt.mpr hlen)).trans (if_pos hno)
    simp [hv]
  | capacityFault hi hlen henv hcap => simp [verdict_of_producing hi hlen henv, hcap]
  | passed _ hlen harg henv hcap ht => exact .inl ⟨verdict_of_passed hlen harg henv hcap, ht⟩

end

end Sys2Proof.Machine

/-! ## What a command depends on (R37, R72, R82) -/
namespace Sys2Proof.Machine

/-- `s` and `s'` agree on all that a command may read: the parameters, the input sequence and the configuration. -/
structure SameInput (s s' : State) : Prop where
  params : s.params = s'.params
  input : inputSeq s = inputSeq s'
  ilen : s.ilen = s'.ilen
  ocap : s.ocap = s'.ocap
  sep : s.sep = s'.sep
  asciiOnly : s.asciiOnly = s'.asciiOnly
  maxlen : s.maxlen = s'.maxlen
  arg : s.arg = s'.arg

section
variable {s s' : State} (h : SameInput s s') {i : Instr}
include h

theorem SameInput.commandResult_eq (hi : Spec.WritesResult i) : commandResult s i = commandResult s' i := by
  cases i with
  | b64enc | b64dec | b32enc | b32dec | escape | unescape => exact hi.elim
  | tosym | fromsym | utf8chk | asciichk | sepchk | hexchk | needesc =>
    simp only [commandResult, h.arg, h.input, h.params, h.sep, h.asciiOnly]

theorem SameInput.commandOutput_eq (i : Instr) : commandOutput s i = commandOutput s' i := by
  cases i <;> simp only [commandOutput, h.input, h.maxlen]

theorem SameInput.requiredCapacity_eq (i : Instr) : Spec.requiredCapacity s i = Spec.requiredCapacity s' i := by
  cases i <;> simp only [Spec.requiredCapacity, h.ilen, h.maxlen]

theorem SameInput.verdict_eq (i : Instr) : Spec.verdict s i = Spec.verdict s' i := by
  simp only [Spec.verdict, h.params, h.input, h.ilen, h.ocap, h.arg, h.requiredCapacity_eq]

end

/-- A term that no word encodes raises IllegalAlpha before any other check (R292). -/
theorem exec_of_ill_formed {i : Instr} {s : State} (hw : i.wellFormed = false) (hs : s.fault = false) :
    exec i s = .next (takeFault .illegalAlpha s) := by
  have refuses {size : Nat} {a : Alphabet} (ha : alphabetSize a ≠ size) (k : State → State) :
      unlessFaulted s (fun s => checkAlpha size a s k) = takeFault .illegalAlpha s := by
    rw [unlessFaulted_of_live hs, checkAlpha, if_neg ha]
  cases i with
  | tosym | fromsym | utf8chk | asciichk | sepchk | hexchk | needesc | escape | unescape => cases hw
  | b64enc a | b64dec a | b32enc a | b32dec a =>
    refine congrArg Host.Outcome.next (refuses ?_ _)
    revert hw
    cases a <;> decide

/-- The fault that a command takes depends on the input and the configuration alone. -/
theorem SameInput.fault_eq {s s' t t' : State} {i : Instr} (h : SameInput s s') (hs : s.fault = false)
    (hs' : s'.fault = false) (he : exec i s = .next t) (he' : exec i s' = .next t') :
    t.fault = t'.fault ∧ (t.fault = true → t.cause = t'.cause) := by
  cases hw : i.wellFormed with
  | false =>
    obtain rfl := Host.Outcome.next.inj ((exec_of_ill_formed hw hs).symm.trans he)
    obtain rfl := Host.Outcome.next.inj ((exec_of_ill_formed hw hs').symm.trans he')
    simp
  | true =>
    have hv := h.verdict_eq i
    rcases exec_verdict hw hs he with ⟨hv0, hf⟩ | ⟨hv0, hf, hc⟩ <;>
      rcases exec_verdict hw hs' he' with ⟨hv0', hf'⟩ | ⟨hv0', hf', hc'⟩
    · simp [hf, hf']
    · exact absurd (hv.symm.trans hv0) hv0'
    · exact absurd (hv.trans hv0') hv0
    · exact ⟨hf.trans hf'.symm, fun _ => hc.trans (hv.trans hc'.symm)⟩

end Sys2Proof.Machine

/-! ## The statements on what a command reports and depends on -/
namespace Sys2Proof.Proofs

open Sys2Proof.Machine

/-- Settles O22: the first check that fails is the one whose code the rules give (`exec_verdict`). -/
theorem commandsFaultExactlyWhenTheRulesSay : Obligations.CommandsFaultExactlyWhenTheRulesSay := by
  intro i s hw hs
  obtain ⟨t, h⟩ := exec_answers_next i s
  refine ⟨t, h, ?_⟩
  rcases exec_verdict hw hs h with ⟨hv, hf⟩ | ⟨hv, hf, hc⟩
  · exact ⟨fun _ => hf, fun hne => absurd hv hne⟩
  · exact ⟨fun h0 => absurd h0 hv, fun _ => ⟨hf, hc⟩⟩

/-- Settles O21: the fault is the rules' verdict, and a completing command leaves `commandResult` or `commandOutput`, all of them
functions of the input and the configuration. -/
theorem commandsDependOnInputAndConfigurationOnly : Obligations.CommandsDependOnInputAndConfigurationOnly := by
  intro i s s' t t' hs hs' hparams hinput hilen hocap hsep hascii hmaxlen harg he he'
  have same : SameInput s s' := ⟨hparams, hinput, hilen, hocap, hsep, hascii, hmaxlen, harg⟩
  obtain ⟨hfault, hcause⟩ := same.fault_eq hs hs' he he'
  refine ⟨hfault, hcause, fun ht hi => ?_, fun ht hi => ?_⟩
  · cases exec_completed hs he ht with
    | produced hn => exact absurd hi hn
    | result =>
      cases exec_completed hs' he' (hfault ▸ ht) with
      | produced hn => exact absurd hi hn
      | result => exact same.commandResult_eq hi
  · cases exec_completed hs he ht with
    | result hr => exact absurd hr hi
    | produced =>
      cases exec_completed hs' he' (hfault ▸ ht) with
      | result hr => exact absurd hr hi
      | produced =>
        refine ⟨by simp only [storeOutput_olen, same.commandOutput_eq i], fun p hp => ?_⟩
        simp only [storeOutput_obuf, read_overwrite, countReads_ocap, ← hocap, if_pos hp, same.commandOutput_eq i]

end Sys2Proof.Proofs

/-! ## A producing command that completes (R26, R336)

Completion, output and frame are one lemma for all six producing commands, in the shape `Spec.Produced`. -/
namespace Sys2Proof.Machine

/-- What the tail reads as: none for UNSPEC. -/
def Tail.byte : Tail → Option Byte
  | .unspec => none
  | .zeroed => some 0

theorem storeOutput_produced {s : State} {out : List Byte} (hout : out.length ≤ s.ocap.toNat) (tail : Tail) (n : Nat) :
    Spec.Produced s (storeOutput tail out (countReads n s)) out tail.byte n := by
  refine ⟨rfl, ?_, fun p => ?_⟩
  · rw [storeOutput_olen, BitVec.toNat_ofNat, Nat.mod_eq_of_lt (hout.trans_lt s.ocap.isLt)]
  · rw [storeOutput_read tail out (countReads n s) p hout]
    cases tail <;> rfl

section
variable {i : Instr} {s t : State} (hi : ¬Spec.WritesResult i)
include hi

/-- A producing command that does not fault had a legal input and room for its output. -/
theorem exec_produced (hs : s.fault = false) (h : exec i s = .next t) (ht : t.fault = false) :
    Spec.Ready s ∧ Spec.Fits s (Spec.requiredCapacity s i) ∧
      Spec.Produced s t (commandOutput s i) (commandTail i).byte (inputReads s i) := by
  cases exec_checked hs h with
  | illegalAlpha | lengthFault | indexRange | notEnvelope | capacityFault => cases ht
  | passed _ hlen _ _ hcap =>
    refine ⟨⟨hs, hlen (readsInput_of_not_writesResult hi)⟩, hcap hi, ?_⟩
    cases exec_completed hs h ht with
    | result hr => exact absurd hr hi
    | produced =>
      obtain ⟨-, hreq⟩ := hcap hi
      exact storeOutput_produced ((commandOutput_length_le i s).trans hreq) _ _

theorem exec_produces (hw : i.wellFormed = true) (hs : Spec.Ready s)
    (hfits : Spec.Fits s (Spec.requiredCapacity s i))
    (henv : i = .unescape → hexEnvelope s.params.hexUpperOk (inputSeq s) = true) :
    ∃ t, exec i s = .next t ∧ t.fault = false ∧
      Spec.Produced s t (commandOutput s i) (commandTail i).byte (inputReads s i) := by
  obtain ⟨t, h⟩ := exec_answers_next i s
  rcases exec_capacity_cases hw hi hs henv h with ⟨hnot, -⟩ | ⟨-, ht⟩
  · exact absurd hfits hnot
  · obtain ⟨hlive, -⟩ := hs
    obtain ⟨-, -, hprod⟩ := exec_produced hi hlive h ht
    exact ⟨t, h, ht, hprod⟩

end

/-- The input sequence of a state whose IBUF holds `x` from index 0 to ILEN. -/
theorem inputSeq_eq_of_stored {s : State} {x : List Byte} (hlen : s.ilen.toNat = x.length)
    (hx : ∀ k, k < x.length → s.ibuf.read k = x[k]?) : inputSeq s = x := by
  refine List.ext_getElem? fun k => ?_
  rcases Nat.lt_or_ge k x.length with hk | hk
  · have hread := (hx k hk).trans (List.getElem?_eq_getElem hk)
    rw [inputSeq, inputBytes_stored s _ k _ (hlen ▸ hk) hread, List.getElem?_eq_getElem hk]
  · rw [List.getElem?_eq_none hk, List.getElem?_eq_none (by rw [inputSeq_length, hlen]; exact hk)]

/-- The host moves a producing command's output to IBUF: the input sequence is then that output. -/
theorem inputSeq_eq_of_moved {s s1 t : State} {out : List Byte} {tail : Option Byte} {n : Nat}
    (hprod : Spec.Produced s s1 out tail n) (hilen : t.ilen = s1.olen)
    (hmove : ∀ k, k < t.ilen.toNat → t.ibuf.read k = s1.obuf.read k) : inputSeq t = out := by
  obtain ⟨-, holen, hobuf⟩ := hprod
  have hlen : t.ilen.toNat = out.length := hilen ▸ holen
  refine inputSeq_eq_of_stored hlen fun k hk => ?_
  rw [hmove k (hlen ▸ hk), hobuf, if_pos hk]

end Sys2Proof.Machine

/-! ## The statements on the output of the grouped codecs -/
namespace Sys2Proof.Proofs

open Sys2Proof.Machine

/-- Settles O35: an encode command that gets room for the padded length completes with `commandOutput` (`exec_produces`). -/
theorem encodeCommandsProduceTheEncoding : Obligations.EncodeCommandsProduceTheEncoding := by
  constructor
  · intro a s ha hs hfits
    obtain ⟨t, h, -, hprod⟩ := exec_produces (i := .b64enc a) id (decide_eq_true ha) hs hfits nofun
    have ⟨_, holen, _⟩ := hprod
    rw [commandOutput, encodeBytes_length, inputSeq_length, encLen_sixBit] at holen
    exact ⟨t, h, hprod, holen⟩
  · intro s hs hfits
    obtain ⟨t, h, -, hprod⟩ := exec_produces (i := .b32enc .base32) id rfl hs hfits nofun
    have ⟨_, holen, _⟩ := hprod
    rw [commandOutput, encodeBytes_length, inputSeq_length, encLen_fiveBit] at holen
    exact ⟨t, h, hprod, holen⟩

/-- Settles O39: a decode command that gets room for ILEN bytes completes with `commandOutput`, whatever the bytes. -/
theorem decodeCommandsProduceTheDecoding : Obligations.DecodeCommandsProduceTheDecoding := by
  constructor
  · intro a s ha hs hfits
    obtain ⟨t, h, -, hprod⟩ := exec_produces (i := .b64dec a) id (decide_eq_true ha) hs hfits nofun
    exact ⟨t, h, hprod⟩
  · intro s hs hfits
    obtain ⟨t, h, -, hprod⟩ := exec_produces (i := .b32dec .base32) id rfl hs hfits nofun
    exact ⟨t, h, hprod⟩

end Sys2Proof.Proofs

/-! ## The fields of a group as bit slices (R152, R161)

A group's bytes or symbols are written out as one number, and a slice of an appended bit vector as quotients and remainders; each
slice of the rules is then linear arithmetic over the bytes or symbols. -/
namespace Sys2Proof.Machine

theorem toNat_append_eq {m n : Nat} (x : BitVec m) (y : BitVec n) : (x ++ y).toNat = x.toNat * 2 ^ n + y.toNat := by
  rw [BitVec.toNat_append, ← Nat.shiftLeft_add_eq_or_of_lt y.isLt, Nat.shiftLeft_eq]

theorem toNat_extractLsb'_eq {n : Nat} (start len : Nat) (x : BitVec n) :
    (x.extractLsb' start len).toNat = x.toNat / 2 ^ start % 2 ^ len := by
  rw [BitVec.extractLsb'_toNat, Nat.shiftRight_eq_div_pow]

theorem symbolIndex_sixBit (s : List Byte) (g j : Nat) :
    symbolIndex sixBit s g j = fieldFromTop 24 6 j (concatFields 8
      [(s.getD (3 * g) 0).toNat, (s.getD (3 * g + 1) 0).toNat, (s.getD (3 * g + 2) 0).toNat]) := rfl

theorem symbolIndex_fiveBit (s : List Byte) (g j : Nat) :
    symbolIndex fiveBit s g j = fieldFromTop 40 5 j (concatFields 8
      [(s.getD (5 * g) 0).toNat, (s.getD (5 * g + 1) 0).toNat, (s.getD (5 * g + 2) 0).toNat, (s.getD (5 * g + 3) 0).toNat,
        (s.getD (5 * g + 4) 0).toNat]) := rfl

/-- Byte `m` of a decoded text is byte `m % gb` of group `m / gb`. -/
theorem decodeBytes_getElem? (fam : Family) (a : Alphabet) (s : List Byte) {g k : Nat} (hk : k < fam.gb)
    (hm : fam.gb * g + k < decLen fam s) :
    (decodeBytes fam a s)[fam.gb * g + k]? =
      some (BitVec.ofNat 8 (fieldFromTop (8 * fam.gb) 8 k (unpackGroup fam a s g))) := by
  have hmod : (fam.gb * g + k) % fam.gb = k := by rw [Nat.mul_add_mod, Nat.mod_eq_of_lt hk]
  have hdiv : (fam.gb * g + k) / fam.gb = g := by rw [Nat.mul_add_div (by omega), Nat.div_eq_of_lt hk, Nat.add_zero]
  simp [decodeBytes, hm, hmod, hdiv]

section
variable {a : Alphabet} {s : List Byte} {g k : Nat}

theorem decodeBytes_sixBit_getElem? {y : Nat → BitVec 6} (hy : ∀ j, decodedSymbol sixBit a s g j = (y j).toNat)
    (hk : k < 3) (hm : 3 * g + k < decLen sixBit s) :
    (decodeBytes sixBit a s)[3 * g + k]? = some (BitVec.ofNat 8 (fieldFromTop 24 8 k (concatFields 6
      [(y 0).toNat, (y 1).toNat, (y 2).toNat, (y 3).toNat]))) := by
  refine (decodeBytes_getElem? sixBit a s hk hm).trans ?_
  simp only [unpackGroup, hy]
  rfl

theorem decodeBytes_fiveBit_getElem? {y : Nat → BitVec 5} (hy : ∀ j, decodedSymbol fiveBit a s g j = (y j).toNat)
    (hk : k < 5) (hm : 5 * g + k < decLen fiveBit s) :
    (decodeBytes fiveBit a s)[5 * g + k]? = some (BitVec.ofNat 8 (fieldFromTop 40 8 k (concatFields 5
      [(y 0).toNat, (y 1).toNat, (y 2).toNat, (y 3).toNat, (y 4).toNat, (y 5).toNat, (y 6).toNat, (y 7).toNat]))) := by
  refine (decodeBytes_getElem? fiveBit a s hk hm).trans ?_
  simp only [unpackGroup, hy]
  rfl

end

theorem uses_sixBit {a : Alphabet} (ha : a ≠ .base32) : Spec.Uses a sixBit := .inl ⟨ha, rfl⟩

theorem uses_fiveBit : Spec.Uses .base32 fiveBit := .inr ⟨rfl, rfl⟩

/-- An index of the alphabet that a family is used with fills a field of the family. -/
theorem alphabetSize_of_uses {fam : Family} {a : Alphabet} (h : Spec.Uses a fam) : alphabetSize a = 2 ^ fam.bits := by
  rcases h with ⟨ha, rfl⟩ | ⟨rfl, rfl⟩
  · exact (alphabetSize_eq a).trans (if_neg ha)
  · rfl

theorem decodedSymbol_lt {fam : Family} {a : Alphabet} (h : Spec.Uses a fam) (s : List Byte) (g j : Nat) :
    decodedSymbol fam a s g j < 2 ^ fam.bits := by
  unfold decodedSymbol
  split
  · exact alphabetSize_of_uses h ▸ fromSym_lt a _
  · exact Nat.two_pow_pos _

end Sys2Proof.Machine

/-! ## The statements on bit slices -/
namespace Sys2Proof.Proofs

open Sys2Proof.Machine

/-- Settles O32: both sides are quotients and remainders of the group's bytes. -/
theorem symbolIndicesAreTheBitSlices : Obligations.SymbolIndicesAreTheBitSlices := by
  constructor
  · intro s g f0 f1 f2 h0 h1 h2
    have := f0.isLt; have := f1.isLt; have := f2.isLt
    simp only [symbolIndex_sixBit, ← h0, ← h1, ← h2, toNat_append_eq, toNat_extractLsb'_eq, fieldFromTop,
      concatFields, List.foldl_cons, List.foldl_nil]
    omega
  · intro s g f0 f1 f2 f3 f4 h0 h1 h2 h3 h4
    have := f0.isLt; have := f1.isLt; have := f2.isLt; have := f3.isLt; have := f4.isLt
    simp only [symbolIndex_fiveBit, ← h0, ← h1, ← h2, ← h3, ← h4, toNat_append_eq, toNat_extractLsb'_eq, fieldFromTop,
      concatFields, List.foldl_cons, List.foldl_nil]
    omega

/-- Settles O36: a decoded symbol is as wide as its field (`decodedSymbol_lt`), and both sides are quotients and remainders of
the group's symbols. -/
theorem decodedBytesAreTheBitSlices : Obligations.DecodedBytesAreTheBitSlices := by
  constructor
  · intro a s g k y ha hy hk hm
    have hsym : ∀ j, decodedSymbol sixBit a s g j = (y j).toNat := fun j => by
      rw [hy j, BitVec.toNat_ofNat]
      exact (Nat.mod_eq_of_lt (decodedSymbol_lt (uses_sixBit ha) s g j)).symm
    rw [decodeBytes_sixBit_getElem? hsym hk hm]
    have := (y 0).isLt; have := (y 1).isLt; have := (y 2).isLt; have := (y 3).isLt
    match k, hk with
    | 0, _ | 1, _ | 2, _ =>
      refine congrArg some (BitVec.eq_of_toNat_eq ?_)
      simp only [BitVec.toNat_ofNat, toNat_append_eq, toNat_extractLsb'_eq, fieldFromTop, concatFields,
        List.foldl_cons, List.foldl_nil]
      omega
  · intro s g k y hy hk hm
    have hsym : ∀ j, decodedSymbol fiveBit .base32 s g j = (y j).toNat := fun j => by
      rw [hy j, BitVec.toNat_ofNat]
      exact (Nat.mod_eq_of_lt (decodedSymbol_lt uses_fiveBit s g j)).symm
    rw [decodeBytes_fiveBit_getElem? hsym hk hm]
    have := (y 0).isLt; have := (y 1).isLt; have := (y 2).isLt; have := (y 3).isLt
    have := (y 4).isLt; have := (y 5).isLt; have := (y 6).isLt; have := (y 7).isLt
    match k, hk with
    | 0, _ | 1, _ | 2, _ | 3, _ | 4, _ =>
      refine congrArg some (BitVec.eq_of_toNat_eq ?_)
      simp only [BitVec.toNat_ofNat, toNat_append_eq, toNat_extractLsb'_eq, fieldFromTop, concatFields,
        List.foldl_cons, List.foldl_nil]
      omega

end Sys2Proof.Proofs

/-! ## Cutting a bit string into fields and putting them together again (R68) -/
namespace Sys2Proof.Machine

section
variable {width n : Nat}

/-- The first `j` fields are the string without what the others take. -/
theorem concatFields_div {f : Nat → Nat} (hf : ∀ k, f k < 2 ^ width) {j : Nat} (hj : j ≤ n) :
    concatFields width ((List.range n).map f) / 2 ^ (width * n - width * j) =
      concatFields width ((List.range j).map f) := by
  induction n, hj using Nat.le_induction with
  | base => simp
  | succ n hj ih =>
    have hexp : width * (n + 1) - width * j = width + (width * n - width * j) := by
      have := Nat.mul_le_mul_left width hj
      rw [Nat.mul_succ]
      omega
    rw [concatFields_range_succ, hexp, pow_add, ← Nat.div_div_eq_div_mul, Nat.mul_comm _ (2 ^ width),
      Nat.mul_add_div (Nat.two_pow_pos _), Nat.div_eq_of_lt (hf n), Nat.add_zero, ih]

/-- Field `j` of a concatenation is the `j`-th of its parts. -/
theorem fieldFromTop_concatFields {f : Nat → Nat} (hf : ∀ k, f k < 2 ^ width) {j : Nat} (hj : j < n) :
    fieldFromTop (width * n) width j (concatFields width ((List.range n).map f)) = f j := by
  rw [fieldFromTop, concatFields_div hf hj, concatFields_range_succ, Nat.mul_add_mod', Nat.mod_eq_of_lt (hf j)]

/-- A field of another width that ends within the first `m` parts depends on these alone. -/
theorem fieldFromTop_concatFields_congr {f g : Nat → Nat} (hf : ∀ k, f k < 2 ^ width) (hg : ∀ k, g k < 2 ^ width)
    {m : Nat} (hm : m ≤ n) (hfg : ∀ k, k < m → f k = g k) {width' j : Nat} (hj : width' * (j + 1) ≤ width * m) :
    fieldFromTop (width * n) width' j (concatFields width ((List.range n).map f)) =
      fieldFromTop (width * n) width' j (concatFields width ((List.range n).map g)) := by
  have hexp : width * n - width' * (j + 1) = (width * n - width * m) + (width * m - width' * (j + 1)) := by
    have := Nat.mul_le_mul_left width hm
    omega
  have hfirst : (List.range m).map f = (List.range m).map g :=
    List.map_congr_left fun k hk => hfg k (List.mem_range.mp hk)
  simp only [fieldFromTop, hexp, pow_add, ← Nat.div_div_eq_div_mul, concatFields_div hf hm, concatFields_div hg hm, hfirst]

theorem concatFields_fieldFromTop_eq_div (v : Nat) {m : Nat} (hv : v < 2 ^ (width * n)) (hm : m ≤ n) :
    concatFields width ((List.range m).map fun j => fieldFromTop (width * n) width j v) =
      v / 2 ^ (width * n - width * m) := by
  induction m with
  | zero => exact (Nat.div_eq_of_lt hv).symm
  | succ m ih =>
    have hexp : width * n - width * m = (width * n - width * (m + 1)) + width := by
      have := Nat.mul_le_mul_left width hm
      rw [Nat.mul_succ] at this ⊢
      omega
    rw [concatFields_range_succ, ih (by omega), fieldFromTop, hexp, pow_add, ← Nat.div_div_eq_div_mul, Nat.div_add_mod']

/-- A bit string is the concatenation of its fields. -/
theorem concatFields_fieldFromTop {v : Nat} (hv : v < 2 ^ (width * n)) :
    concatFields width ((List.range n).map fun j => fieldFromTop (width * n) width j v) = v := by
  rw [concatFields_fieldFromTop_eq_div v hv le_rfl, Nat.sub_self, pow_zero, Nat.div_one]

theorem concatFields_lt {f : Nat → Nat} (hf : ∀ k, f k < 2 ^ width) (n : Nat) :
    concatFields width ((List.range n).map f) < 2 ^ (width * n) := by
  have hdiv := concatFields_div hf (Nat.zero_le n)
  exact (Nat.div_eq_zero_iff_lt (Nat.two_pow_pos _)).mp hdiv

end

end Sys2Proof.Machine

/-! ## The first PAD of an input, and what follows it (R160, R162) -/
namespace Sys2Proof.Machine

theorem firstPad_eq {s : List Byte} {t : Nat} (ht : t ≤ s.length) (hbefore : ∀ k, k < t → s[k]? ≠ some pad)
    (hat : t < s.length → s[t]? = some pad) : firstPad s = t := by
  rcases Nat.lt_trichotomy (firstPad s) t with h | h | h
  · exact absurd (getElem?_firstPad (h.trans_le ht)) (hbefore _ h)
  · exact h
  · exact absurd (hat (h.trans_le (firstPad_le_length s))) (getElem?_ne_pad_of_lt_firstPad h)

theorem firstPad_append_pad {u : List Byte} (hu : pad ∉ u) (v : List Byte) : firstPad (u ++ pad :: v) = u.length := by
  rw [firstPad_eq_idxOf, List.idxOf_append_of_notMem hu, List.idxOf_cons_self, Nat.add_zero]

theorem firstPad_of_notMem {u : List Byte} (hu : pad ∉ u) : firstPad u = u.length := by
  rw [firstPad_eq_idxOf, List.idxOf_eq_length hu]

/-- A byte of the decoded text ends within the symbols of its group that stand before the first PAD, of which there are `t`. -/
theorem byte_ends_in_symbols {a : Alphabet} {fam : Family} (h : Spec.Uses a fam) {t m : Nat} (hm : m < t * fam.bits / 8) :
    8 * (m % fam.gb + 1) ≤ fam.bits * min fam.gs (t - fam.gs * (m / fam.gb)) := by
  have hbits : 8 * (m + 1) ≤ fam.bits * t := by rw [Nat.mul_comm fam.bits]; omega
  obtain ⟨hpos, hgs, hgroup⟩ := bits_mul_gs_of_uses h
  have hsymbols := Nat.mul_pos hpos hgs
  have hk : m % fam.gb < fam.gb := Nat.mod_lt m (by omega)
  have hsplit : 8 * m = fam.bits * (fam.gs * (m / fam.gb)) + 8 * (m % fam.gb) := by
    rw [← Nat.mul_assoc, hgroup, Nat.mul_assoc, ← Nat.mul_add, Nat.div_add_mod]
  rw [← Nat.mul_min_mul_left, Nat.mul_sub, hgroup]
  omega

/-- Two inputs that agree below the first PAD of both decode to the same bytes. -/
theorem decodeBytes_congr {fam : Family} {a : Alphabet} (h : Spec.Uses a fam) {s s' : List Byte}
    (hpad : firstPad s = firstPad s') (hagree : ∀ k, k < firstPad s → s[k]? = s'[k]?) :
    decodeBytes fam a s = decodeBytes fam a s' := by
  obtain ⟨-, -, hgroup⟩ := bits_mul_gs_of_uses h
  rw [decodeBytes, decodeBytes, decLen, decLen, ← hpad]
  refine List.map_congr_left fun m hm => congrArg (BitVec.ofNat 8) ?_
  have hend := byte_ends_in_symbols h (List.mem_range.mp hm)
  rw [unpackGroup, unpackGroup, ← hgroup]
  refine fieldFromTop_concatFields_congr (decodedSymbol_lt h s _) (decodedSymbol_lt h s' _) (Nat.min_le_left _ _)
    (fun j hj => ?_) hend
  rw [decodedSymbol, decodedSymbol, hagree _ (by omega)]

end Sys2Proof.Machine

/-! ## Decoding an encoded text (R170)

The symbols of a group are the fields of its bytes, so the group's bit string comes back whole; PAD stands exactly where the bit
string has ended, so the length comes back too. -/
namespace Sys2Proof.Machine

theorem pad_notMem_rom (a : Alphabet) : pad ∉ rom a := fun hmem => by
  obtain ⟨hpad, -⟩ := symbol_is_printable_and_not_pad hmem
  exact hpad rfl

section
variable {fam : Family} {a : Alphabet} (h : Spec.Uses a fam)
include h

theorem symbolIndex_lt (s : List Byte) (g j : Nat) : symbolIndex fam s g j < alphabetSize a := by
  rw [alphabetSize_of_uses h]
  exact Nat.mod_lt _ (Nat.two_pow_pos _)

theorem firstPad_encodeBytes (x : List Byte) : firstPad (encodeBytes fam a x) = dataSymbols fam x.length := by
  obtain ⟨-, hgs, -⟩ := bits_mul_gs_of_uses h
  have hle := dataSymbols_le_encLen hgs x.length
  refine firstPad_eq (by simpa using hle) (fun k hk => ?_) fun hk => ?_
  · rw [encodeBytes_getElem? fam a (hk.trans_le hle), if_pos hk]
    have hmem := (mem_rom_iff a _).mpr ⟨_, symbolIndex_lt h x (k / fam.gs) (k % fam.gs), rfl⟩
    exact fun he => pad_notMem_rom a (Option.some.inj he ▸ hmem)
  · rw [encodeBytes_getElem? fam a (by simpa using hk), if_neg (lt_irrefl _)]

theorem decLen_encodeBytes (x : List Byte) : decLen fam (encodeBytes fam a x) = x.length := by
  rw [decLen, firstPad_encodeBytes h]
  rcases h with ⟨-, rfl⟩ | ⟨-, rfl⟩
  · rw [dataSymbols_sixBit]; simp only [sixBit]; omega
  · rw [dataSymbols_fiveBit]; simp only [fiveBit]; omega

theorem decodedSymbol_encodeBytes (x : List Byte) (g : Nat) {j : Nat} (hj : j < fam.gs) :
    decodedSymbol fam a (encodeBytes fam a x) g j = symbolIndex fam x g j := by
  obtain ⟨hbits, hgs, hgroup⟩ := bits_mul_gs_of_uses h
  have hdiv : (fam.gs * g + j) / fam.gs = g := by rw [Nat.mul_add_div hgs, Nat.div_eq_of_lt hj, Nat.add_zero]
  have hmod : (fam.gs * g + j) % fam.gs = j := by rw [Nat.mul_add_mod, Nat.mod_eq_of_lt hj]
  rcases Nat.lt_or_ge (fam.gs * g + j) (dataSymbols fam x.length) with hp | hp
  · rw [decodedSymbol, encodeBytes_getElem? fam a (hp.trans_le (dataSymbols_le_encLen hgs _)), if_pos hp, hdiv, hmod]
    exact fromSym_toSym (symbolIndex_lt h x g j)
  · rw [symbolIndex_eq_zero hgroup hj ((dataSymbols_le_iff hbits _ _).mp hp), decodedSymbol]
    rcases Nat.lt_or_ge (fam.gs * g + j) (encLen fam x.length) with hl | hl
    · rw [encodeBytes_getElem? fam a hl, if_neg (Nat.not_lt.mpr hp)]
      exact fromSym_of_notMem (pad_notMem_rom a)
    · rw [List.getElem?_eq_none (by simpa using hl)]

theorem unpackGroup_encodeBytes (x : List Byte) (g : Nat) :
    unpackGroup fam a (encodeBytes fam a x) g = packGroup fam x g := by
  obtain ⟨-, -, hgroup⟩ := bits_mul_gs_of_uses h
  have hpack : packGroup fam x g < 2 ^ (8 * fam.gb) := concatFields_lt (fun k => BitVec.isLt _) fam.gb
  have hsymbols : (List.range fam.gs).map (fun j => decodedSymbol fam a (encodeBytes fam a x) g j) =
      (List.range fam.gs).map fun j => fieldFromTop (8 * fam.gb) fam.bits j (packGroup fam x g) :=
    List.map_congr_left fun j hj => decodedSymbol_encodeBytes h x g (List.mem_range.mp hj)
  rw [unpackGroup, hsymbols, ← hgroup, concatFields_fieldFromTop (hgroup ▸ hpack)]

theorem decodeBytes_encodeBytes (x : List Byte) : decodeBytes fam a (encodeBytes fam a x) = x := by
  refine List.ext_getElem ((decodeBytes_length _ _ _).trans (decLen_encodeBytes h x)) fun m hm hx => ?_
  obtain ⟨hbits, hgs, hgroup⟩ := bits_mul_gs_of_uses h
  have hsymbols := Nat.mul_pos hbits hgs
  have hbyte : fieldFromTop (8 * fam.gb) 8 (m % fam.gb) (packGroup fam x (m / fam.gb)) =
      (x.getD (fam.gb * (m / fam.gb) + m % fam.gb) 0).toNat :=
    fieldFromTop_concatFields (fun k => BitVec.isLt _) (Nat.mod_lt m (by omega))
  simp only [decodeBytes, List.getElem_map, List.getElem_range]
  rw [unpackGroup_encodeBytes h, hbyte, Nat.div_add_mod, List.getD_eq_getElem _ _ hx, BitVec.ofNat_toNat, BitVec.setWidth_eq]

end

end Sys2Proof.Machine

/-! ## The statements on decoding -/
namespace Sys2Proof.Proofs

open Sys2Proof.Machine

/-- Settles O38: both inputs end at the same first PAD and agree below it (`decodeBytes_congr`). -/
theorem decodingIgnoresWhatFollowsTheFirstPad : Obligations.DecodingIgnoresWhatFollowsTheFirstPad := by
  intro fam a u v h hu
  have hfirst : firstPad (u ++ pad :: v) = u.length := firstPad_append_pad hu v
  refine decodeBytes_congr h (hfirst.trans (firstPad_of_notMem hu).symm) fun k hk => ?_
  exact List.getElem?_append_left (hfirst ▸ hk)

/-- Settles O40: each group's bit string comes back whole (`unpackGroup_encodeBytes`), and so does the length. -/
theorem decodingInvertsEncoding : Obligations.DecodingInvertsEncoding := fun _ x =>
  ⟨fun ha => decodeBytes_encodeBytes (uses_sixBit ha) x, decodeBytes_encodeBytes uses_fiveBit x⟩

/-- Settles O41: the decode command's input is the encode command's output, so its output is the first input
(`decodeBytes_encodeBytes`). -/
theorem encodeThenDecodeCommandsReturnTheInput : Obligations.EncodeThenDecodeCommandsReturnTheInput := by
  intro a enc dec s s1 t hpair hs he hs1 ht hfits hilen hmove
  have henc : ¬Spec.WritesResult enc := by
    rcases hpair with ⟨-, rfl, -⟩ | ⟨rfl, -⟩ <;> exact id
  obtain ⟨-, -, hprod⟩ := exec_produced henc hs he hs1
  have hmoved : inputSeq t = commandOutput s enc := inputSeq_eq_of_moved hprod hilen hmove
  have hout : commandOutput t dec = inputSeq s := by
    rcases hpair with ⟨ha, rfl, rfl⟩ | ⟨rfl, rfl⟩ <;> rw [commandOutput, hmoved]
    · exact decodeBytes_encodeBytes (uses_sixBit ha) _
    · exact decodeBytes_encodeBytes uses_fiveBit _
  have hdec : ∃ t1, exec dec t = .next t1 ∧ t1.fault = false ∧
      Spec.Produced t t1 (commandOutput t dec) (commandTail dec).byte (inputReads t dec) := by
    rcases hpair with ⟨ha, -, rfl⟩ | ⟨-, rfl⟩
    · exact exec_produces (i := .b64dec a) id (decide_eq_true ha) ht hfits nofun
    · exact exec_produces (i := .b32dec .base32) id rfl ht hfits nofun
  obtain ⟨t1, he1, ht1, hprod1⟩ := hdec
  rw [hout] at hprod1
  obtain ⟨-, holen, hobuf⟩ := hprod1
  rw [inputSeq_length] at holen hobuf
  exact ⟨t1, he1, ht1, BitVec.eq_of_toNat_eq holen, fun k hk => (hobuf k).trans (if_pos hk)⟩

end Sys2Proof.Proofs

/-! ## The byte-serial machine (R205 to R208)

A state of the machine says how many continuation bytes are still to come, so from a leading byte on it checks what one iteration of
the scan checks. -/
namespace Sys2Proof.Machine

/-- The state with `n` continuation bytes to come before the next sequence. -/
def awaiting : Nat → ScanState
  | 0 => .start
  | 1 => .cont1
  | _ => .cont2

theorem scanNext_second (k : MultiClass) (b : Byte) :
    scanNext (.second k) b =
      if inRange (lo2 k) (hi2 k) b then awaiting (seqLen (.multi k) - 2) else .reject := by
  cases k <;> rfl

theorem scanNext_awaiting_succ {n : Nat} (hn : n < 2) (b : Byte) :
    scanNext (awaiting (n + 1)) b = if isContinuation b then awaiting n else .reject := by
  match n, hn with
  | 0, _ | 1, _ => rfl

@[simp] theorem foldl_scanNext_reject (s : List Byte) : s.foldl scanNext .reject = .reject := by
  induction s with
  | nil => rfl
  | cons b s ih => exact ih

theorem foldl_scanNext_awaiting {n : Nat} (hn : n ≤ 2) (s : List Byte) :
    s.foldl scanNext (awaiting n) = .start ↔
      n ≤ s.length ∧ (s.take n).all isContinuation = true ∧ (s.drop n).foldl scanNext .start = .start := by
  induction n generalizing s with
  | zero => simp [awaiting]
  | succ n ih =>
    cases s with
    | nil => match n, hn with
      | 0, _ | 1, _ => simp [awaiting]
    | cons b s =>
      rw [List.foldl_cons, scanNext_awaiting_succ (by omega)]
      cases hb : isContinuation b <;> simp [hb, ih (by omega)]

/-- The machine on a sequence's bytes and what follows, against one iteration of R195. -/
theorem foldl_scanNext_of_leadClass {b : Byte} {k : LeadClass} (hk : leadClass b = some k) (rest : List Byte) :
    (b :: rest).foldl scanNext .start = .start ↔
      seqLen k ≤ rest.length + 1 ∧ restOk k (rest.take (seqLen k - 1)) = true ∧
        (rest.drop (seqLen k - 1)).foldl scanNext .start = .start := by
  rw [List.foldl_cons, scanNext, hk]
  cases k with
  | single => simp [seqLen, restOk]
  | multi k =>
    obtain ⟨m, hm, hlen⟩ : ∃ m, m ≤ 2 ∧ seqLen (.multi k) = m + 2 :=
      ⟨seqLen (.multi k) - 2, by cases k <;> decide, by cases k <;> rfl⟩
    rw [hlen]
    cases rest with
    | nil => simp
    | cons c more =>
      rw [List.foldl_cons, scanNext_second, hlen]
      cases hc : inRange (lo2 k) (hi2 k) c <;> simp [hc, restOk, foldl_scanNext_awaiting hm]

theorem foldl_scanNext_iff_scan {fuel : Nat} {s : List Byte} (hs : s.length ≤ fuel) :
    s.foldl scanNext .start = .start ↔ scan fuel s = true := by
  induction fuel generalizing s with
  | zero => simp [List.length_eq_zero_iff.mp (Nat.le_zero.mp hs), scan]
  | succ fuel ih =>
    cases s with
    | nil => simp [scan]
    | cons b rest =>
      rw [scan_succ_cons]
      cases hk : leadClass b with
      | none => simp [scanNext, hk]
      | some k =>
        rw [List.length_cons] at hs
        rw [foldl_scanNext_of_leadClass hk, ih (by rw [List.length_drop]; omega)]
        simp

theorem foldl_scanNext_iff_wellFormed {s : List Byte} : s.foldl scanNext .start = .start ↔ wellFormedUtf8 s = true :=
  foldl_scanNext_iff_scan le_rfl

end Sys2Proof.Machine

/-! ## Sequences and scalar values (R209) -/
namespace Sys2Proof.Machine

theorem ofNat_eq_of_eq_toNat {n : Nat} {b : Byte} (h : n = b.toNat) : BitVec.ofNat 8 n = b := by
  rw [h, BitVec.ofNat_toNat, BitVec.setWidth_eq]

section
variable {c : Nat}

theorem utf8Bytes_one (h : c ≤ 0x7F) : Spec.utf8Bytes c = [BitVec.ofNat 8 c] := if_pos h

theorem utf8Bytes_two (h : 0x7F < c) (h' : c ≤ 0x7FF) :
    Spec.utf8Bytes c = [BitVec.ofNat 8 (0xC0 + c / 64), BitVec.ofNat 8 (0x80 + c % 64)] := by
  rw [Spec.utf8Bytes, if_neg (Nat.not_le.mpr h), if_pos h']

theorem utf8Bytes_three (h : 0x7FF < c) (h' : c ≤ 0xFFFF) :
    Spec.utf8Bytes c =
      [BitVec.ofNat 8 (0xE0 + c / 4096), BitVec.ofNat 8 (0x80 + c / 64 % 64), BitVec.ofNat 8 (0x80 + c % 64)] := by
  rw [Spec.utf8Bytes, if_neg (by omega), if_neg (Nat.not_le.mpr h), if_pos h']

theorem utf8Bytes_four (h : 0xFFFF < c) :
    Spec.utf8Bytes c =
      [BitVec.ofNat 8 (0xF0 + c / 262144), BitVec.ofNat 8 (0x80 + c / 4096 % 64), BitVec.ofNat 8 (0x80 + c / 64 % 64),
        BitVec.ofNat 8 (0x80 + c % 64)] := by
  rw [Spec.utf8Bytes, if_neg (by omega), if_neg (by omega), if_neg (Nat.not_le.mpr h)]

/-- The shortest form of a scalar value has one of the nine shapes. -/
theorem isSequence_utf8Bytes (hc : Spec.IsScalar c) : Spec.IsSequence (Spec.utf8Bytes c) := by
  simp only [Spec.IsScalar] at hc
  rcases Nat.lt_or_ge 0x7F c with h1 | h1
  · rcases Nat.lt_or_ge 0x7FF c with h2 | h2
    · rcases Nat.lt_or_ge 0xFFFF c with h3 | h3
      · rw [utf8Bytes_four h3]
        simp only [Spec.IsSequence, BitVec.toNat_ofNat]
        omega
      · rw [utf8Bytes_three h2 h3]
        simp only [Spec.IsSequence, BitVec.toNat_ofNat]
        omega
    · rw [utf8Bytes_two h1 h2]
      simp only [Spec.IsSequence, BitVec.toNat_ofNat]
      omega
  · rw [utf8Bytes_one h1]
    simp only [Spec.IsSequence, BitVec.toNat_ofNat]
    omega

end

/-- Each of the nine shapes is the shortest form of the scalar value that its payload bits spell. -/
theorem exists_scalar_of_isSequence {q : List Byte} (hq : Spec.IsSequence q) :
    ∃ c, Spec.IsScalar c ∧ Spec.utf8Bytes c = q := by
  match q, hq with
  | [a], hq =>
    simp only [Spec.IsSequence] at hq
    refine ⟨a.toNat, by omega, ?_⟩
    rw [utf8Bytes_one hq, ofNat_eq_of_eq_toNat rfl]
  | [a, b], hq =>
    simp only [Spec.IsSequence] at hq
    refine ⟨(a.toNat - 0xC0) * 64 + (b.toNat - 0x80), by omega, ?_⟩
    rw [utf8Bytes_two (by omega) (by omega), ofNat_eq_of_eq_toNat (b := a) (by omega),
      ofNat_eq_of_eq_toNat (b := b) (by omega)]
  | [a, b, c], hq =>
    simp only [Spec.IsSequence] at hq
    refine ⟨(a.toNat - 0xE0) * 4096 + (b.toNat - 0x80) * 64 + (c.toNat - 0x80), by omega, ?_⟩
    rw [utf8Bytes_three (by omega) (by omega), ofNat_eq_of_eq_toNat (b := a) (by omega),
      ofNat_eq_of_eq_toNat (b := b) (by omega), ofNat_eq_of_eq_toNat (b := c) (by omega)]
  | [a, b, c, d], hq =>
    simp only [Spec.IsSequence] at hq
    refine ⟨(a.toNat - 0xF0) * 262144 + (b.toNat - 0x80) * 4096 + (c.toNat - 0x80) * 64 + (d.toNat - 0x80), by omega, ?_⟩
    rw [utf8Bytes_four (by omega), ofNat_eq_of_eq_toNat (b := a) (by omega), ofNat_eq_of_eq_toNat (b := b) (by omega),
      ofNat_eq_of_eq_toNat (b := c) (by omega), ofNat_eq_of_eq_toNat (b := d) (by omega)]

/-- Sequences one after another are the shortest forms of scalar values one after another. -/
theorem exists_scalars_of_sequences {qs : List (List Byte)} (hqs : ∀ q ∈ qs, Spec.IsSequence q) :
    ∃ cs : List Nat, (∀ c ∈ cs, Spec.IsScalar c) ∧ cs.map Spec.utf8Bytes = qs := by
  induction qs with
  | nil => exact ⟨[], by simp⟩
  | cons q qs ih =>
    obtain ⟨hq, hrest⟩ := List.forall_mem_cons.mp hqs
    obtain ⟨c, hc, rfl⟩ := exists_scalar_of_isSequence hq
    obtain ⟨cs, hcs, rfl⟩ := ih hrest
    exact ⟨c :: cs, List.forall_mem_cons.mpr ⟨hc, hcs⟩, rfl⟩

theorem leadClass_eq_none_iff {b : Byte} :
    leadClass b = none ↔ (0x80 ≤ b.toNat ∧ b.toNat ≤ 0xC1) ∨ 0xF5 ≤ b.toNat := by
  have hsome : (∃ k, leadClass b = some k) ↔ ¬((0x80 ≤ b.toNat ∧ b.toNat ≤ 0xC1) ∨ 0xF5 ≤ b.toNat) := by
    rw [exists_leadClass]
    simp only [leadClass_eq_some_iff, leadBounds]
    omega
  rw [← not_iff_not, ← hsome, ← Option.ne_none_iff_exists']

end Sys2Proof.Machine

/-! ## The statements on the UTF-8 validator -/
namespace Sys2Proof.Proofs

open Sys2Proof.Machine

/-- Settles O42, by the bounds of each class (`leadClass_eq_some_iff`). -/
theorem leadingByteClassesFollowTheTable : Obligations.LeadingByteClassesFollowTheTable := by
  refine ⟨fun b => ⟨leadClass_eq_none_iff, ?_⟩, rfl, rfl⟩
  simp only [leadClass_eq_some_iff, leadBounds, true_and]
  exact ⟨by omega, by omega, by omega, by omega, by omega⟩

/-- Settles O44: the byte-serial machine is in its start state after a well-formed beginning, so the rest decides. -/
theorem wellFormednessIsCompositional : Obligations.WellFormednessIsCompositional := by
  refine ⟨rfl, fun u v hu => ?_⟩
  rw [Bool.eq_iff_iff, ← foldl_scanNext_iff_wellFormed, List.foldl_append, foldl_scanNext_iff_wellFormed.mpr hu,
    foldl_scanNext_iff_wellFormed]

/-- Settles O45: from a leading byte on the machine checks what one iteration of the scan checks
(`foldl_scanNext_of_leadClass`). -/
theorem finiteStateFormEqualsTheScan : Obligations.FiniteStateFormEqualsTheScan := fun _ =>
  Bool.eq_iff_iff.mpr (decide_eq_true_iff.trans foldl_scanNext_iff_wellFormed)

/-- Settles O46: an accepted input is a concatenation of sequences (O43), and these are the shortest forms of the scalar
values (`isSequence_utf8Bytes`, `exists_scalar_of_isSequence`). -/
theorem acceptedInputsEncodeScalarValues : Obligations.AcceptedInputsEncodeScalarValues := by
  intro s
  rw [wellFormedMeansConcatenationOfSequences s]
  constructor
  · rintro ⟨qs, hqs, rfl⟩
    obtain ⟨cs, hcs, rfl⟩ := exists_scalars_of_sequences hqs
    exact ⟨cs, hcs, List.flatMap_def⟩
  · rintro ⟨cs, hcs, rfl⟩
    exact ⟨cs.map Spec.utf8Bytes, List.forall_mem_map.mpr fun c hc => isSequence_utf8Bytes (hcs c hc), List.flatMap_def.symm⟩

/-- Settles O47, by the completion of a predicate command. -/
theorem utf8chkGivesTheVerdict : Obligations.Utf8chkGivesTheVerdict := fun _ hs =>
  congrArg Host.Outcome.next (predicateCommand_of_ready hs fun _ inp => wellFormedUtf8 inp)

end Sys2Proof.Proofs

/-! ## The envelope of a payload, byte by byte (R260 to R262) -/
namespace Sys2Proof.Machine

theorem nibble_hexDigit (v : BitVec 4) : nibble (hexDigit v) = v := by
  revert v; decide

/-- The digits of the encoder are lower case, so they are digits for both values of HEX_UPPER_OK. -/
theorem isHexDigit_hexDigit (upper : Bool) (v : BitVec 4) : isHexDigit upper (hexDigit v) = true := by
  revert upper v; decide

theorem hexPairs_getElem? (p : List Byte) (k : Nat) :
    (p.flatMap hexPair)[2 * k]? = p[k]?.map (fun b => hexDigit (b.extractLsb' 4 4)) ∧
      (p.flatMap hexPair)[2 * k + 1]? = p[k]?.map (fun b => hexDigit (b.extractLsb' 0 4)) := by
  induction p generalizing k with
  | nil => simp
  | cons b p ih =>
    cases k with
    | zero => simp [hexPair]
    | succ k => simpa [hexPair, Nat.mul_succ] using ih k

theorem envelope_take_head (p : List Byte) : (envelope p).take 5 = envelopeHead := by
  simp [envelope, envelopeHead]

theorem envelope_getElem?_last (p : List Byte) : (envelope p)[5 + 2 * p.length]? = some envelopeEnd := by
  have hbefore : (envelopeHead ++ p.flatMap hexPair).length = 5 + 2 * p.length := by
    rw [List.length_append, hexPairs_length]
    rfl
  rw [envelope, ← hbefore, List.getElem?_concat_length]

theorem interior_envelope (p : List Byte) : interior (envelope p) = p.flatMap hexPair := by
  have hpairs : 6 + 2 * p.length - 6 = (p.flatMap hexPair).length := by
    rw [hexPairs_length, Nat.add_sub_cancel_left]
  rw [interior, envelope_length, hpairs, envelope, List.append_assoc]
  exact List.take_left

theorem envelope_getElem? {p : List Byte} {k : Nat} {b : Byte} (hk : p[k]? = some b) :
    (envelope p)[5 + 2 * k]? = some (hexDigit (b.extractLsb' 4 4)) ∧
      (envelope p)[6 + 2 * k]? = some (hexDigit (b.extractLsb' 0 4)) := by
  obtain ⟨hlt, -⟩ := List.getElem?_eq_some_iff.mp hk
  have hinterior {i : Nat} (hi : i < 2 * p.length) : (envelope p)[5 + i]? = (p.flatMap hexPair)[i]? := by
    rw [← interior_envelope p, interior, List.getElem?_take, if_pos (by simpa using hi), List.getElem?_drop]
  obtain ⟨hhigh, hlow⟩ := hexPairs_getElem? p k
  rw [hk] at hhigh hlow
  refine ⟨(hinterior (by omega)).trans hhigh, ?_⟩
  rw [show 6 + 2 * k = 5 + (2 * k + 1) by omega]
  exact (hinterior (by omega)).trans hlow

theorem hexEnvelope_envelope (upper : Bool) (p : List Byte) : hexEnvelope upper (envelope p) = true := by
  have hdigits : (p.flatMap hexPair).all (isHexDigit upper) = true := by
    simp [hexPair, isHexDigit_hexDigit]
  have hlast : (envelope p)[(envelope p).length - 1]? = some envelopeEnd := by
    rw [envelope_length, show 6 + 2 * p.length - 1 = 5 + 2 * p.length by omega]
    exact envelope_getElem?_last p
  rw [hexEnvelope, interior_envelope, hdigits, hlast, envelope_take_head, envelope_length]
  simp

/-- Payload byte `k` is put together from the two digits of its place (R270). -/
theorem unescapeBytes_getElem? {e : List Byte} {k : Nat} {hi lo : Byte} (hk : k < (e.length - 6) / 2)
    (hhi : e[5 + 2 * k]? = some hi) (hlo : e[6 + 2 * k]? = some lo) :
    (unescapeBytes e)[k]? = some (nibble hi ++ nibble lo) := by
  simp [unescapeBytes, hk, hhi, hlo]

theorem append_nibbles (b : Byte) : b.extractLsb' 4 4 ++ b.extractLsb' 0 4 = b :=
  BitVec.extractLsb'_append_extractLsb' (w := 4) (len := 4)

theorem unescapeBytes_envelope (p : List Byte) : unescapeBytes (envelope p) = p := by
  have hlen : (unescapeBytes (envelope p)).length = p.length := by simp
  refine List.ext_getElem? fun k => ?_
  rcases Nat.lt_or_ge k p.length with hk | hk
  · obtain ⟨hhigh, hlow⟩ := envelope_getElem? (List.getElem?_eq_getElem hk)
    rw [unescapeBytes_getElem? (by simpa using hk) hhigh hlow, nibble_hexDigit, nibble_hexDigit, append_nibbles,
      List.getElem?_eq_getElem hk]
  · rw [List.getElem?_eq_none hk, List.getElem?_eq_none (hlen.symm ▸ hk)]

/-- The bytes that ESCAPE keeps. -/
theorem inputSeq_take_length (s : State) : ((inputSeq s).take s.maxlen.toNat).length = min s.ilen.toNat s.maxlen.toNat := by
  rw [List.length_take, inputSeq_length, Nat.min_comm]

theorem needsEscaping_of_hexEnvelope {upper : Bool} {s : List Byte} (h : hexEnvelope upper s = true) (c : Byte)
    (asciiOnly : Bool) : needsEscaping upper s c asciiOnly = true := by
  simp [needsEscaping, h]

@[simp] theorem predicateResult_eq_zero_iff (b : Bool) : predicateResult b = 0 ↔ b = false := by
  cases b <;> decide

end Sys2Proof.Machine

/-! ## The statements on the hex escape and on NEEDESC's components -/
namespace Sys2Proof.Proofs

open Sys2Proof.Machine

/-- Settles O52: on one input the five commands leave the results of their predicates, and NEEDESC's is the others' OR. -/
theorem needescEqualsItsComponents : Obligations.NeedescEqualsItsComponents := by
  intro s hs
  refine ⟨_, _, _, _, _, rfl, rfl, rfl, rfl, rfl, ?_⟩
  simp only [predicateCommand_of_ready hs, setResult_result, predicateResult_eq_one_iff, predicateResult_eq_zero_iff,
    countReads_sep, countReads_params, countReads_asciiOnly, needsEscaping, Bool.or_eq_true]
  by_cases hmode : s.asciiOnly = true <;> simp [hmode, or_assoc]

/-- Settles O53: the sixteen nibbles one by one. -/
theorem hexDigitsAreLowerCaseAndInvertible : Obligations.HexDigitsAreLowerCaseAndInvertible := by
  unfold Obligations.HexDigitsAreLowerCaseAndInvertible
  decide

/-- Settles O54: the output is the envelope of the bytes kept (`escapeBytes_eq_envelope`), read by its places. -/
theorem escapeProducesTheEnvelope : Obligations.EscapeProducesTheEnvelope := by
  rintro s m rfl hs hfits
  obtain ⟨t, h, -, hprod⟩ := exec_produces (i := .escape) id rfl hs hfits nofun
  have hkept := inputSeq_take_length s
  have hout : commandOutput s .escape = envelope ((inputSeq s).take s.maxlen.toNat) := escapeBytes_eq_envelope _ _
  refine ⟨t, _, h, hout ▸ hprod, hkept ▸ envelope_length _, envelope_take_head _, hkept ▸ envelope_getElem?_last _,
    fun k b hk hb => envelope_getElem? ?_⟩
  rw [List.getElem?_take, if_pos (by omega), hb]

/-- Settles O55: payload byte `k` is put together from the digits at 5 + 2k and 6 + 2k (`unescapeBytes_getElem?`). -/
theorem unescapeProducesThePayloadAndZeroes : Obligations.UnescapeProducesThePayloadAndZeroes := by
  intro s hs henv hfits
  obtain ⟨t, h, -, hprod⟩ := exec_produces not_writesResult_unescape rfl hs hfits fun _ => henv
  have hlen : (commandOutput s .unescape).length = (s.ilen.toNat - 6) / 2 := by simp [commandOutput]
  refine ⟨t, _, h, hprod, hlen, fun k hi lo hk hhi hlo => ⟨_, unescapeBytes_getElem? ?_ hhi hlo, ?_⟩⟩
  · rw [inputSeq_length, ← hlen]
    exact hk
  · rw [toNat_append_eq]
    omega

/-- Settles O56: the escaped text is an envelope (`hexEnvelope_envelope`), and an envelope needs escaping. -/
theorem escapedTextNeedsEscaping : Obligations.EscapedTextNeedsEscaping := by
  intro x maxlen upper asciiOnly c
  have henv : hexEnvelope upper (escapeBytes x maxlen) = true :=
    escapeBytes_eq_envelope x maxlen ▸ hexEnvelope_envelope upper _
  exact ⟨henv, needsEscaping_of_hexEnvelope henv c asciiOnly⟩

/-- Settles O57: each byte comes back from its two digits (`unescapeBytes_envelope`). -/
theorem unescapingInvertsEscaping : Obligations.UnescapingInvertsEscaping := fun x maxlen =>
  escapeBytes_eq_envelope x maxlen ▸ unescapeBytes_envelope _

/-- Settles O58: UNESCAPE's input is the envelope of the bytes kept, so the envelope test passes and its output is these bytes. -/
theorem escapeThenUnescapeCommandsReturnTheInput : Obligations.EscapeThenUnescapeCommandsReturnTheInput := by
  rintro s s1 t m rfl hs he hs1 ht ⟨hobuf, hroom⟩ hilen hmove
  have hkept := inputSeq_take_length s
  obtain ⟨-, -, hprod⟩ := exec_produced (i := .escape) id hs he hs1
  have hmoved : inputSeq t = envelope ((inputSeq s).take s.maxlen.toNat) :=
    (inputSeq_eq_of_moved hprod hilen hmove).trans (escapeBytes_eq_envelope _ _)
  have hout : commandOutput t .unescape = (inputSeq s).take s.maxlen.toNat := by
    rw [commandOutput, hmoved, unescapeBytes_envelope]
  have hlen : t.ilen.toNat = 6 + 2 * min s.ilen.toNat s.maxlen.toNat := by
    rw [← inputSeq_length, hmoved, envelope_length, hkept]
  have hfits : Spec.Fits t (Spec.requiredCapacity t .unescape) := ⟨hobuf, by rw [Spec.requiredCapacity]; omega⟩
  obtain ⟨t1, he1, ht1, hprod1⟩ := exec_produces not_writesResult_unescape rfl ht hfits fun _ =>
    hmoved ▸ hexEnvelope_envelope _ _
  rw [hout] at hprod1
  obtain ⟨-, holen, hread⟩ := hprod1
  rw [hkept] at holen hread
  refine ⟨t1, he1, ht1, holen, fun k hk => ?_⟩
  rw [hread, if_pos hk, List.getElem?_take, if_pos (by omega)]

/-- Settles O59: what is escaped is an envelope and comes back, and what is sent as it is was no envelope. -/
theorem transportRecoversEveryField : Obligations.TransportRecoversEveryField := by
  intro x maxlen upper asciiOnly c hx
  cases hneeds : needsEscaping upper x c asciiOnly with
  | true =>
    obtain ⟨henv, -⟩ := escapedTextNeedsEscaping x maxlen upper asciiOnly c
    simp [henv, unescapingInvertsEscaping x maxlen, List.take_of_length_le hx]
  | false =>
    have hno : hexEnvelope upper x = false :=
      Bool.eq_false_iff.mpr fun henv => absurd hneeds (by simp [needsEscaping_of_hexEnvelope henv])
    simp [hno]

end Sys2Proof.Proofs

/-! ## Register and buffer transactions (R22 to R35, R61, R62, R81) -/
namespace Sys2Proof.Machine

section
variable {s : State} {rest : List HostEvent}

theorem step_reads_register {r : Reg} (h : s.pending = .regRead 32 (regOffset r) :: rest) :
    step s = .next { s with pending := rest, reply := some (.word (readReg r s)) } := by
  rw [step_of_pending_cons h, serve_regRead (regAccess_regOffset r)]
  cases r <;> rfl

theorem step_writes_register {r : Reg} {v : Word} (hr : r ≠ .cmd)
    (h : s.pending = .regWrite 32 (regOffset r) v :: rest) : step s = .next (writeReg r v (popEvent rest s)) :=
  (step_of_pending_cons h).trans (serve_regWrite_of_ne_cmd (regAccess_regOffset r) hr v _)

end

/-- STATUS as a number (R24). -/
theorem statusWord_toNat (fault : Bool) (cause : BitVec 4) :
    (statusWord fault cause).toNat = 16 * cause.toNat + if fault then 1 else 0 := by
  simp only [statusWord, toNat_append_eq]
  cases fault <;> simp [Nat.mul_comm]

theorem ofBool_setWidth_toNat (b : Bool) : ((BitVec.ofBool b).setWidth 32).toNat = if b then 1 else 0 := by
  cases b <;> rfl

theorem getLsbD_zero_eq (v : Word) : v.getLsbD 0 = decide (v.toNat % 2 = 1) := by
  rw [BitVec.getLsbD, Nat.testBit_zero]

theorem bufferAccess_of_lt {a size : Nat} (h : a < size) : bufferAccess 8 a size = true := decide_eq_true ⟨rfl, h⟩

theorem bufferAccess_stray {bits a size : Nat} (h : bits ≠ 8 ∨ size ≤ a) : bufferAccess bits a size = false := by
  refine decide_eq_false ?_
  omega

theorem readByte_of_some {m : Memory} {a : Nat} {b : Byte} (h : m.read a = some b) (n : Nat) : readByte m a n = b := by
  rw [readByte, h, Option.getD_some]

theorem readByte_of_none {m : Memory} {a : Nat} (h : m.read a = none) (n : Nat) :
    readByte m a n = Config.unspecByte n := by
  rw [readByte, h, Option.getD_none]

/-- A write, by what its buffer then reads. -/
theorem read_write_spec (m : Memory) (a : Nat) (b : Byte) :
    (m.write a b).read a = some b ∧ ∀ k, k ≠ a → (m.write a b).read k = m.read k :=
  ⟨(read_write m a b a).trans (if_pos rfl), fun k hk => (read_write m a b k).trans (if_neg hk)⟩

section
variable {s : State} {rest : List HostEvent} {a : Nat} {b : Byte}

theorem step_writes_ibuf (ha : a < s.params.ibufSize) (h : s.pending = .ibufWrite 8 a b :: rest) :
    step s = .next { s with pending := rest, reply := none, ibuf := s.ibuf.write a b } :=
  (step_of_pending_cons h).trans (if_pos (bufferAccess_of_lt ha))

theorem step_writes_obuf (ha : a < s.params.obufSize) (h : s.pending = .obufWrite 8 a b :: rest) :
    step s = .next { s with pending := rest, reply := none, obuf := s.obuf.write a b } :=
  (step_of_pending_cons h).trans (if_pos (bufferAccess_of_lt ha))

theorem step_reads_ibuf (ha : a < s.params.ibufSize) (h : s.pending = .ibufRead 8 a :: rest) :
    step s = .next { s with
      pending := rest, reply := some (.byte (readByte s.ibuf a s.draws)), draws := s.draws + 1 } :=
  (step_of_pending_cons h).trans (if_pos (bufferAccess_of_lt ha))

theorem step_reads_obuf (ha : a < s.params.obufSize) (h : s.pending = .obufRead 8 a :: rest) :
    step s = .next { s with
      pending := rest, reply := some (.byte (readByte s.obuf a s.draws)), draws := s.draws + 1 } :=
  (step_of_pending_cons h).trans (if_pos (bufferAccess_of_lt ha))

end

/-- Every register but the two size registers reads 0 after reset (R50). -/
theorem readReg_resetWith (p : Params) {r : Reg} (hi : r ≠ .ibufsz) (ho : r ≠ .obufsz) :
    readReg r (State.resetWith p) = 0 := by
  cases r with
  | ibufsz => exact absurd rfl hi
  | obufsz => exact absurd rfl ho
  | status => exact (by decide : statusWord false 0 = 0)
  | cmd | ilen | ocap | olen | result | sep | cfg | maxlen | arg => rfl

/-- No register reads what the platform's reset leaves of the host's. -/
theorem readReg_platformReset (r : Reg) (s : State) :
    readReg r (platformReset s) = readReg r (State.resetWith s.params) := by
  cases r <;> rfl

end Sys2Proof.Machine

/-! ## The bytes of a register on the bus (R22, R73) -/
namespace Sys2Proof.Machine

theorem regOffset_add_lt (r : Reg) {k : Nat} (hk : k < 4) : regOffset r + k < regWindowSize := by
  have hlast : regOffset r ≤ 0x2C := by cases r <;> decide
  rw [regWindowSize]
  omega

end Sys2Proof.Machine

/-! ## Commands that the host places (R23) -/
namespace Sys2Proof.Machine

theorem issue_of_command {w : Word} {s : State} {i : Instr} (hf : s.fault = false) (hd : decode w = .command i) :
    issue w s = exec i s := by
  simp [issue, hf, hd]

theorem tableWord_toNat (w : Word) : tableWord 32 w.toNat = w := by
  rw [tableWord, Nat.mod_eq_of_lt w.isLt, BitVec.ofNat_toNat, BitVec.setWidth_eq]

theorem decode_of_decodeTableWord {w : Word} {i : Instr} (h : decodeTableWord 32 w.toNat = some i) :
    decode w = .command i := by
  have hword : BitVec.ofNat 32 (w.toNat % 2 ^ 32) = w := tableWord_toNat w
  rw [decodeTableWord, hword] at h
  cases hd : decode w <;> simp_all

end Sys2Proof.Machine

/-! ## The statements on the host port -/
namespace Sys2Proof.Proofs

open Sys2Proof.Machine

/-- Settles O1, by the two cases of the pending list. -/
theorem stepServesTheOldestEvent : Obligations.StepServesTheOldestEvent :=
  ⟨fun _ _ _ => step_of_pending_cons, fun _ => step_of_pending_nil⟩

/-- Settles O2: the event that `withFetchWord` places is a write of the same word to CMD, ahead of all others. -/
theorem stepRunsDecodedCommand : Obligations.StepRunsDecodedCommand := by
  refine ⟨fun s w rest i hf hp hd => ?_, fun s w i hf hd => ?_⟩
  · exact (step_of_command_write hp).trans (issue_of_command hf hd)
  · have hp : (s.withFetchWord 32 w.toNat).pending = .regWrite 32 0x00 w :: s.pending := by
      rw [State.withFetchWord, pushEvent_pending, commandWrite, tableWord_toNat]
    exact (step_of_command_write hp).trans (issue_of_command hf (decode_of_decodeTableWord hd))

/-- Settles O3: the CMD write and every meaning check FAULT first. -/
theorem faultedEngineIgnoresCommands : Obligations.FaultedEngineIgnoresCommands := by
  refine ⟨fun s w rest hs hp => ?_, fun s i hs => exec_of_faulted hs i⟩
  exact (step_of_command_write hp).trans (issue_of_faulted (s := popEvent rest s) hs w)

/-- Settles O4: the decoder run on each word. -/
theorem tableWordsDecode : Obligations.TableWordsDecode := by
  unfold Obligations.TableWordsDecode
  decide

/-- Settles O8: an offset of the table reaches its register (`step_reads_register`), whose stored fields as a number are the
table's. -/
theorem registerReadReturnsStoredFields : Obligations.RegisterReadReturnsStoredFields := by
  intro s rest off value hsizes hmem hp
  suffices h : ∃ r, off = regOffset r ∧ (readReg r s).toNat = value by
    obtain ⟨r, rfl, hvalue⟩ := h
    exact ⟨readReg r s, hvalue, step_reads_register hp⟩
  simp only [List.mem_cons, List.not_mem_nil, or_false, Prod.mk.injEq] at hmem
  rcases hmem with ⟨rfl, rfl⟩ | ⟨rfl, rfl⟩ | ⟨rfl, rfl⟩ | ⟨rfl, rfl⟩ | ⟨rfl, rfl⟩ | ⟨rfl, rfl⟩ | ⟨rfl, rfl⟩ | ⟨rfl, rfl⟩ |
    ⟨rfl, rfl⟩ | ⟨rfl, rfl⟩ | ⟨rfl, rfl⟩ | ⟨rfl, rfl⟩
  · exact ⟨.cmd, rfl, rfl⟩
  · exact ⟨.status, rfl, statusWord_toNat _ _⟩
  · exact ⟨.ilen, rfl, rfl⟩
  · exact ⟨.ocap, rfl, rfl⟩
  · exact ⟨.olen, rfl, rfl⟩
  · exact ⟨.result, rfl, BitVec.toNat_setWidth_of_le (by decide)⟩
  · exact ⟨.sep, rfl, BitVec.toNat_setWidth_of_le (by decide)⟩
  · exact ⟨.cfg, rfl, ofBool_setWidth_toNat _⟩
  · exact ⟨.maxlen, rfl, rfl⟩
  · exact ⟨.arg, rfl, BitVec.toNat_setWidth_of_le (by decide)⟩
  · exact ⟨.ibufsz, rfl, readReg_ibufsz_toNat hsizes⟩
  · exact ⟨.obufsz, rfl, readReg_obufsz_toNat hsizes⟩

/-- Settles O9, by what `writeReg` stores for the register at each offset. -/
theorem registerWriteStoresDefinedBits : Obligations.RegisterWriteStoresDefinedBits := by
  refine fun s v rest => ⟨fun hp => step_writes_register (r := .ilen) nofun hp,
    fun hp => step_writes_register (r := .ocap) nofun hp, fun hp => step_writes_register (r := .maxlen) nofun hp,
    fun hp => ?_, fun hp => ?_, fun hp => ?_, fun off hoff hp => ?_⟩
  · rw [← BitVec.setWidth_eq_extractLsb' (by decide)]
    exact step_writes_register (r := .sep) nofun hp
  · rw [← getLsbD_zero_eq]
    exact step_writes_register (r := .cfg) nofun hp
  · rw [← BitVec.setWidth_eq_extractLsb' (by decide)]
    exact step_writes_register (r := .arg) nofun hp
  · simp only [List.mem_cons, List.not_mem_nil, or_false] at hoff
    rcases hoff with rfl | rfl | rfl | rfl | rfl
    · exact step_writes_register (r := .status) nofun hp
    · exact step_writes_register (r := .olen) nofun hp
    · exact step_writes_register (r := .result) nofun hp
    · exact step_writes_register (r := .ibufsz) nofun hp
    · exact step_writes_register (r := .obufsz) nofun hp

/-- Settles O12: both stray forms fail the test of `bufferAccess`. -/
theorem strayBufferAccessIsRefused : Obligations.StrayBufferAccessIsRefused := by
  refine fun s rest bits a b => ⟨fun h => ?_, fun h => ?_⟩
  all_goals
    have hno := Bool.eq_false_iff.mp (bufferAccess_stray h)
    exact ⟨fun hp => (step_of_pending_cons hp).trans (if_neg hno),
      fun hp => (step_of_pending_cons hp).trans (if_neg hno)⟩

/-- Settles O13, by what a buffer reads after a write (`read_write`). -/
theorem bufferTransactionsMoveOneByte : Obligations.BufferTransactionsMoveOneByte := by
  refine fun s rest a b => ⟨fun ha hp => ?_, fun ha hp => ?_, fun ha hb hp => ?_, fun ha hb hp => ?_⟩
  · exact ⟨_, step_writes_ibuf ha hp, rfl, read_write_spec s.ibuf a b⟩
  · exact ⟨_, step_writes_obuf ha hp, rfl, read_write_spec s.obuf a b⟩
  · rw [step_reads_ibuf ha hp, readByte_of_some hb]
  · rw [step_reads_obuf ha hp, readByte_of_some hb]

/-- Settles O14, by what a read of an unlisted index returns. -/
theorem unwrittenByteReadsAFreeValue : Obligations.UnwrittenByteReadsAFreeValue := by
  refine fun s rest a => ⟨fun ha hnone hp => ?_, fun ha hnone hp => ?_⟩
  · rw [step_reads_ibuf ha hp, readByte_of_none hnone]
  · rw [step_reads_obuf ha hp, readByte_of_none hnone]

/-- Settles O15: the machine at hand meets R6, so the size registers hold the parameters. -/
theorem resetStateHasTheTableValues : Obligations.ResetStateHasTheTableValues := by
  obtain ⟨hsizes, -⟩ := Config.params_valid
  exact ⟨fun r hi ho => readReg_resetWith _ hi ho, readReg_ibufsz_toNat (s := State.reset) hsizes,
    readReg_obufsz_toNat (s := State.reset) hsizes, fun _ => ⟨rfl, rfl⟩⟩

/-- Settles O16: the event's next state is the reset state but for the model's own fields, which no register reads. -/
theorem platformResetRestoresTheResetState : Obligations.PlatformResetRestoresTheResetState := by
  refine fun s rest hp => ⟨_, step_of_pending_cons hp, rfl, fun r hi ho => ?_, rfl, rfl, fun _ => ⟨rfl, rfl⟩⟩
  exact (readReg_platformReset r (popEvent rest s)).trans (readReg_resetWith _ hi ho)

/-- Settles O60: addresses in disjoint windows differ, and a register's bytes lie inside its window (`regOffset_lt`). -/
theorem windowsGiveDifferentFlatAddresses : Obligations.WindowsGiveDifferentFlatAddresses := by
  rintro p r k i j v b ⟨-, hri, hro, hio⟩ hk hi hj
  have hreg := regOffset_add_lt r hk
  exact ⟨_, _, _, rfl, rfl, rfl, rfl, rfl, rfl, rfl, rfl, rfl, by omega, by omega, by omega⟩

end Sys2Proof.Proofs

/-! ## The statements on the alphabets -/
namespace Sys2Proof.Proofs

open Sys2Proof.Machine

/-- Settles O27: the six tables index by index. -/
theorem romSymbolsFollowTheFormulas : Obligations.RomSymbolsFollowTheFormulas := by
  unfold Obligations.RomSymbolsFollowTheFormulas
  decide

/-- Settles O29, by the inverse law for indices (`fromSym_toSym`). -/
theorem symbolsRoundTrip : Obligations.SymbolsRoundTrip := by
  refine fun a => ⟨fun i hi => fromSym_toSym hi, fromSym_lt a, fun b => ⟨fun hb => ⟨_, fromSym_lt a b, hb⟩, ?_⟩⟩
  rintro ⟨i, hi, rfl⟩
  rw [fromSym_toSym hi]

/-- Settles O30: the index check passes, against the alphabet's size. -/
theorem tosymGivesTheSymbol : Obligations.TosymGivesTheSymbol := by
  intro a s hs harg
  rw [← alphabetSize_eq] at harg
  refine congrArg Host.Outcome.next ?_
  rw [unlessFaulted_of_live hs]
  exact if_neg (Nat.not_le.mpr harg)

/-- Settles O31: an index is below 64, so RESULT holds it whole (`fromSym_toNat`). -/
theorem fromsymGivesTheIndex : Obligations.FromsymGivesTheIndex := fun a s hs =>
  ⟨_, fromSym_toNat a s.arg, congrArg Host.Outcome.next (unlessFaulted_of_live hs _)⟩

end Sys2Proof.Proofs
